-- ==== Sys2Proof/Word.lean ====
section
/-!
DEFINITION. The plain data every other file is written over: the two pin levels and the widths the spec gives
(00_scope.md R22, R25; 30_encoding.md R100).
-/

namespace Sys2Proof

/-- A pin level (00_scope.md R25). -/
inductive Level where
  | low
  | high
deriving DecidableEq, Repr, Inhabited

/-- The opposite level. -/
def Level.flip : Level → Level
  | .low => .high
  | .high => .low

/-- The 16-bit command word and the 16-bit result register (R22). -/
abbrev Word := BitVec 16

/-- The 8-bit operand field of a command word (R22, R101), and a byte on its way to the line. -/
abbrev Byte := BitVec 8

/-- What one storage slot holds (R22, R80). -/
abbrev Slot := BitVec 7

end Sys2Proof
end

