-- ==== Sys2Proof/Config.lean ====
section
/-!
DEFINITION. What is fixed for the life of the block (the configuration record `Cfg`, 00_scope.md R6 to R20), what the
environment presents in one tick, and the free values: constants without a body, so that no proof can see what they are.
-/

namespace Sys2Proof

/-- `PARITY_MODE` (R12). -/
inductive ParityMode where
  | gated
  | unconditional
deriving DecidableEq, Repr

/-- `TX_BIT7_MODE` (R14). -/
inductive TxBit7Mode where
  | fold8Replace
  | fold8Or
  | mask7
deriving DecidableEq, Repr

/-- `DISABLED_TX_ENABLE` (R16). -/
inductive DisabledTxEnable where
  | active
  | inactive
deriving DecidableEq, Repr

/-- `BEGIN_CLEAR` (R18). -/
inductive BeginClear where
  | fromDisabled
  | always
deriving DecidableEq, Repr

/-- `RxSched`, the receive sampling schedule (R11): five tick offsets. -/
structure RxSched where
  /-- `R_RESAMPLE`: the start-bit re-sample, after the edge. -/
  rResample : Nat
  /-- `T_FIRST`: the step-2 "bias" delay. -/
  tFirst : Nat
  /-- `T_RX_BIT`: the step-3 per-bit delay. -/
  tRxBit : Nat
  /-- `T_PAR_GAP`: the parity sample, after the data-bit-6 sample. -/
  tParGap : Nat
  /-- `T_STOP_GAP`: the stop sample, after the data-bit-6 sample. -/
  tStopGap : Nat
deriving DecidableEq, Repr

/-- `PINS` (R20): four pin identifiers. -/
structure Pins where
  txEnable : Nat
  txData : Nat
  rxEnable : Nat
  rxData : Nat
deriving DecidableEq, Repr

/-- The configuration record `Cfg` (R6 to R20). -/
structure Cfg where
  /-- `N`, the buffer's slot count (R6). -/
  n : Nat
  /-- `T_BREAK` (R7). -/
  tBreak : Nat
  /-- `T_MARK` (R8). -/
  tMark : Nat
  /-- `T_BIT_TX` (R9). -/
  tBitTx : Nat
  /-- `T_SETTLE` (R10). -/
  tSettle : Nat
  /-- `RxSched` (R11). -/
  rxSched : RxSched
  /-- `PARITY_MODE` (R12). -/
  parityMode : ParityMode
  /-- `ADVANCE_HEAD_WRAP` (R13). -/
  advanceHeadWrap : Bool
  /-- `TX_BIT7_MODE` (R14). -/
  txBit7Mode : TxBit7Mode
  /-- `TX_STOP_LEVEL` (R15). -/
  txStopLevel : Level
  /-- `DISABLED_TX_ENABLE` (R16). -/
  disabledTxEnable : DisabledTxEnable
  /-- `EDGE_LATCH` (R17). -/
  edgeLatch : Bool
  /-- `BEGIN_CLEAR` (R18). -/
  beginClear : BeginClear
  /-- `EN_ACTIVE_LEVEL` (R19). -/
  enActiveLevel : Level
  /-- `PINS` (R20). -/
  pins : Pins
deriving DecidableEq, Repr

/-- The order σ in which the two agents act in a tick (20_memory.md R88). -/
inductive ActOrder where
  | hostFirst
  | decoderFirst
deriving DecidableEq, Repr, Inhabited

/-- What one tick is given: the levels of the input ports (10_state.md R40) and the tick's order σ (20_memory.md R88). -/
structure TickIn where
  rst : Bool
  cmdValid : Bool
  cmdWord : Word
  rxData : Level
  order : ActOrder
deriving DecidableEq, Repr, Inhabited

/-- FREE VALUE (DESIGN CHOICE, safe; log 2): what the environment presents in tick `t`, and the order σ of that tick, when the
state lists no input for it. `rx_data` and the command port are free inputs in every tick (60_exceptions.md R256, R257), and
σ is free (20_memory.md R88). -/
opaque Config.freeTickIn : Nat → TickIn

/-- FREE VALUE (DESIGN CHOICE, safe; log 7): the 16-bit result of `AVAIL` for a count that 16 bits cannot hold, which only a
configuration with more than 65536 slots can reach; the spec states no result there (30_encoding.md R112). -/
opaque Config.freeCount : Nat → Word

end Sys2Proof
end

