-- ==== Sys2Proof/Syntax.lean ====
section
/-!
DEFINITION. The fifteen commands of the opcode map (30_encoding.md R102), one constructor per row of
spec/opcode_table.json, in the table's order. An operand is the 8-bit `arg` field (R101).
-/

namespace Sys2Proof

/-- A host command. -/
inductive Instr where
  /-- `BEGIN` (40_line_state.md R145). -/
  | beginRx
  /-- `END` (R147). -/
  | endRx
  /-- `HOLD` (R148). -/
  | hold
  /-- `SETST s`, `s` a state code 0..255 (R149). -/
  | setSt (s : Byte)
  /-- `WAKE` (41_transmit.md R164). -/
  | wake
  /-- `WCHAR b`, `b` the byte to frame (R165). -/
  | wChar (b : Byte)
  /-- `AVAIL` (43_buffer.md R212). -/
  | avail
  /-- `PEEK` (R213). -/
  | peek
  /-- `READ` (R214). -/
  | read
  /-- `ENDLF` (R215). -/
  | endLf
  /-- `ENDCR` (R216). -/
  | endCr
  /-- `FLUSH` (R218). -/
  | flush
  /-- `ADVH n`, `n` an advance count (R217). -/
  | advH (n : Byte)
  /-- `HASOVF` (R219). -/
  | hasOvf
  /-- `HASPE` (R220). -/
  | hasPe
deriving DecidableEq, Repr

end Sys2Proof
end

