-- ==== Sys2Proof/WellFormed.lean ====
section
/-!
DEFINITION. When a configuration and a command are well formed (00_scope.md R23; 30_encoding.md R101, R105).
-/

namespace Sys2Proof

/-- The four pin identifiers are distinct (R20, R23). -/
def Pins.distinct (p : Pins) : Bool :=
  p.txEnable != p.txData && p.txEnable != p.rxEnable && p.txEnable != p.rxData &&
    p.txData != p.rxEnable && p.txData != p.rxData && p.rxEnable != p.rxData

/-- A configuration is well formed (R23). `T_FIRST ≥ 0` holds of every natural number. -/
def Cfg.wellFormed (c : Cfg) : Bool :=
  decide (2 ≤ c.n) && decide (1 ≤ c.tBreak) && decide (1 ≤ c.tMark) && decide (1 ≤ c.tBitTx) &&
    decide (1 ≤ c.rxSched.rResample) && decide (1 ≤ c.rxSched.tRxBit) && decide (1 ≤ c.rxSched.tParGap) &&
    decide (1 ≤ c.rxSched.tStopGap) && c.pins.distinct

/-- A command is well formed: its operand lies in 0..255 (R101, R105). The 8-bit operand type already carries this, so
every command is well formed (`Instr.wellFormed_all`, Laws/Decode.lean); no state code, byte or count is illegal (R105). -/
def Instr.wellFormed : Instr → Bool
  | .setSt s => decide (s.toNat ≤ 255)
  | .wChar b => decide (b.toNat ≤ 255)
  | .advH n => decide (n.toNat ≤ 255)
  | .beginRx | .endRx | .hold | .wake | .avail | .peek | .read | .endLf | .endCr | .flush | .hasOvf | .hasPe => true

end Sys2Proof
end

