-- ==== Sys2Proof/Decode.lean ====
section
/-!
DEFINITION. `Decode` (30_encoding.md R104), total on all 65536 words and rejecting by name, and after it the encoder, written
from the same encoding table (R100, R102).
-/

namespace Sys2Proof

/-- Why `Decode` answers `Illegal` (R104). -/
inductive DecodeReject where
  /-- `op = 0x0`. -/
  | reservedOpcode
  /-- `rsv ≠ 0b0000`. -/
  | reservedBits
  /-- A non-zero `arg` on an opcode that takes none. -/
  | strayArgument
deriving DecidableEq, Repr

/-- `op = w[15:12]` (R100). -/
def opField (w : Word) : BitVec 4 := w.extractLsb' 12 4

/-- `rsv = w[11:8]` (R100). -/
def rsvField (w : Word) : BitVec 4 := w.extractLsb' 8 4

/-- `arg = w[7:0]` (R100, R101). -/
def argField (w : Word) : Byte := w.extractLsb' 0 8

/-- The opcodes that take an operand: 0x4, 0x6, 0xD (R104). -/
def takesArg (op : BitVec 4) : Bool := op == 0x4#4 || op == 0x6#4 || op == 0xD#4

/-- The command of row `op` of the opcode map (R102), with operand `arg`. -/
def commandOfRow (op : BitVec 4) (arg : Byte) : Except DecodeReject Instr :=
  match op.toNat with
  | 0x1 => .ok .beginRx
  | 0x2 => .ok .endRx
  | 0x3 => .ok .hold
  | 0x4 => .ok (.setSt arg)
  | 0x5 => .ok .wake
  | 0x6 => .ok (.wChar arg)
  | 0x7 => .ok .avail
  | 0x8 => .ok .peek
  | 0x9 => .ok .read
  | 0xA => .ok .endLf
  | 0xB => .ok .endCr
  | 0xC => .ok .flush
  | 0xD => .ok (.advH arg)
  | 0xE => .ok .hasOvf
  | 0xF => .ok .hasPe
  | _ => .error .reservedOpcode

/-- `Decode(w)` (R104). -/
def decode (w : Word) : Except DecodeReject Instr :=
  if opField w = 0x0#4 then .error .reservedOpcode
  else if rsvField w ≠ 0#4 then .error .reservedBits
  else if takesArg (opField w) = false ∧ argField w ≠ 0x00#8 then .error .strayArgument
  else commandOfRow (opField w) (argField w)

/-- A command word from its opcode and operand; the reserved field is zero (R100). -/
def commandWord (op : BitVec 4) (arg : Byte) : Word := op ++ (0#4 ++ arg)

/-- The word of a command (R102). -/
def encode : Instr → Word
  | .beginRx => commandWord 0x1#4 0#8
  | .endRx => commandWord 0x2#4 0#8
  | .hold => commandWord 0x3#4 0#8
  | .setSt s => commandWord 0x4#4 s
  | .wake => commandWord 0x5#4 0#8
  | .wChar b => commandWord 0x6#4 b
  | .avail => commandWord 0x7#4 0#8
  | .peek => commandWord 0x8#4 0#8
  | .read => commandWord 0x9#4 0#8
  | .endLf => commandWord 0xA#4 0#8
  | .endCr => commandWord 0xB#4 0#8
  | .flush => commandWord 0xC#4 0#8
  | .advH n => commandWord 0xD#4 n
  | .hasOvf => commandWord 0xE#4 0#8
  | .hasPe => commandWord 0xF#4 0#8

/-- The command word whose low `nbits` bits are those of `w` and whose other bits are zero: a command is exactly one 16-bit
word (R100), presented whole on the command port, so no byte order arises. -/
def tableWord (nbits w : Nat) : Word := BitVec.ofNat 16 (w % 2 ^ nbits)

/-- The command the decoder reads from a word numbered as spec/opcode_table.json numbers it. -/
def decodeTableWord (nbits w : Nat) : Option Instr :=
  match decode (tableWord nbits w) with
  | .ok i => some i
  | .error _ => none

end Sys2Proof
end

