-- ==== Sys2Proof/Machine/Defaults.lean ====
section
/-!
DEFINITION. The default configuration and the two receive profiles, with the values of 00_scope.md R6 to R20.
-/

namespace Sys2Proof.Machine

/-- The default profile `CENTRE` (R11). -/
def schedCentre : RxSched :=
  { rResample := 1, tFirst := 402, tRxBit := 805, tParGap := 805, tStopGap := 1610 }

/-- The alternative profile `DOC` (R11). -/
def schedDoc : RxSched :=
  { rResample := 1, tFirst := 20, tRxBit := 800, tParGap := 800, tStopGap := 650 }

/-- Four distinct pin identifiers (R20). DESIGN CHOICE (safe; log 12): the spec gives the four roles and no numbers, and nothing
of the block reads the numbers but the check that they differ. -/
def defaultPins : Pins := { txEnable := 0, txData := 1, rxEnable := 2, rxData := 3 }

/-- Every parameter at its default (R6 to R19). -/
def defaultCfg : Cfg :=
  { n := 75
    tBreak := 14161
    tMark := 10000
    tBitTx := 805
    tSettle := 1000
    rxSched := schedCentre
    parityMode := .gated
    advanceHeadWrap := true
    txBit7Mode := .fold8Replace
    txStopLevel := .low
    disabledTxEnable := .active
    edgeLatch := false
    beginClear := .fromDisabled
    enActiveLevel := .high
    pins := defaultPins }

end Sys2Proof.Machine
end

