-- ==== Sys2Proof/Machine/State.lean ====
section
/-!
DEFINITION. The state of the block as plain data: every register of 10_state.md R41 to R59, the output pulses of R40, and the
model's own fields (configuration, inputs to come, tick number); the reasons a step stops; the state after reset (R272).
-/

namespace Sys2Proof.Machine

/-- The five line states (R41; 30_encoding.md R124). -/
inductive LineState where
  | disabled
  | holding
  | transmitting
  | listening
  | interruptEnabled
deriving DecidableEq, Repr

/-- The pull mode of the rx-data pin (R46). `down` exists and no rule writes it. -/
inductive Pull where
  | none
  | up
  | down
deriving DecidableEq, Repr

/-- One segment of a transmit waveform (41_transmit.md R160). -/
structure Segment where
  level : Level
  ticks : Nat
deriving DecidableEq, Repr

/-- The decoder sequencer `DSEQ` (R56). -/
inductive DecoderSeq where
  | idle
  /-- `Busy(c, WORK, PARS, STOPS)`: ticks since the trigger, working byte, sampled parity level, sampled stop level. -/
  | busy (c : Nat) (work : Slot) (pars stops : Level)
deriving DecidableEq, Repr

/-- The storage: the written slots in strictly rising order of index. A slot that is not listed is unwritten (R47): it has no
value, and reading it faults (20_memory.md R81). -/
abbrev Storage := List (Nat × Slot)

/-- The model faults (60_exceptions.md R246). -/
inductive Fault where
  /-- Raised by `BufRead` (`PEEK`, `READ`, `ENDLF`, `ENDCR`) on a slot never written (20_memory.md R81). Safe: the spec says
  nothing of the contents, and the model stops. -/
  | uninitSlotRead (i : Nat)
  /-- Raised by `BufRead`, `Count` (`AVAIL`, `ENDLF`, `ENDCR`) and `Enqueue` on an index at or beyond `N`, which only
  `ADVANCE_HEAD_WRAP = false` reaches (R81, 43_buffer.md R210, R211), and by `BufWrite` in a state no run reaches (log 8). Safe:
  the model stops. -/
  | indexOutOfRange (i : Nat)
deriving DecidableEq, Repr

/-- Why a step has no meaning. -/
inductive Refusal where
  /-- Raised by an arm of `exec` for a command that has no meaning yet; no arm does. Safe. -/
  | notModelled (mnemonic : String)
  /-- Raised by `step` in a state whose configuration breaks 00_scope.md R23 (`ConfigInvalid`, 60_exceptions.md R241): no block
  is built from it. Safe. -/
  | configInvalid
deriving DecidableEq, Repr

/-- The machine's state. -/
structure State where
  /-- The configuration (00_scope.md R6 to R20). No step changes it (log 1). -/
  cfg : Cfg
  /-- `LINE_STATE` (R41). -/
  lineState : LineState
  /-- `ARMED` (R42). -/
  armed : Bool
  /-- `TX_EN` (R43). -/
  txEn : Bool
  /-- `RX_EN` (R44). -/
  rxEn : Bool
  /-- `TX_DATA` (R45). -/
  txData : Level
  /-- `RX_PULL` (R46). -/
  rxPull : Pull
  /-- `BUF` (R47). -/
  buf : Storage
  /-- `HEAD` (R48). A natural number: unbounded when `ADVANCE_HEAD_WRAP = false` (log 6). -/
  head : Nat
  /-- `TAIL` (R49). -/
  tail : Nat
  /-- `OVF` (R50). -/
  ovf : Bool
  /-- `PERR` (R51). -/
  perr : Bool
  /-- `RSP` (R52). -/
  rsp : Word
  /-- `HREM` (R55). -/
  hrem : Nat
  /-- `WSEGS` (R55). -/
  wsegs : List Segment
  /-- `WPOS` (R55). -/
  wpos : Nat
  /-- `DSEQ` (R56). -/
  dseq : DecoderSeq
  /-- `RX_PREV` (R57). -/
  rxPrev : Level
  /-- `EDGE_PEND` (R58). -/
  edgePend : Bool
  /-- `FAULT` (R59): the model's mark. -/
  faultMark : Option Fault
  /-- The `cmd_ready` port in the tick last run (R40, R55). -/
  cmdReady : Bool
  /-- The `rsp_valid` port in the tick last run (R40). -/
  rspValid : Bool
  /-- The `diag_valid` port in the tick last run (R40; 60_exceptions.md R243). -/
  diagValid : Bool
  /-- The `diag_code` port in the tick last run (R40, R243). -/
  diagCode : BitVec 3
  /-- The model's own: what the environment presents in the coming ticks, oldest first; a tick beyond the list is free (log 2). -/
  inputs : List TickIn
  /-- The model's own: the number of the coming tick (00_scope.md R27; log 2). -/
  tick : Nat
deriving DecidableEq, Repr

/-- The state right after reset (70_reset_and_hazards.md R270, R272), with the default configuration (log 12). `FAULT` is `None` at
the start of every run (R59). `inputs` and `tick` are the model's own (log 2). -/
def State.reset : State :=
  { cfg := defaultCfg
    lineState := .disabled
    armed := false
    txEn := true
    rxEn := false
    txData := .low
    rxPull := .none
    buf := []
    head := 0
    tail := 0
    ovf := false
    perr := false
    rsp := 0x0000#16
    hrem := 0
    wsegs := []
    wpos := 0
    dseq := .idle
    rxPrev := .low
    edgePend := false
    faultMark := none
    cmdReady := false
    rspValid := false
    diagValid := false
    diagCode := 0#3
    inputs := []
    tick := 0 }

end Sys2Proof.Machine
end

