-- ==== Sys2Proof/Machine/Ops.lean ====
section
/-!
DEFINITION. The named operations over the storage and the registers: `BufRead`, `BufWrite`, `Count`, `Enqueue`, `SetState`,
`Respond`, the command port and the waveform sequencer, what stands in the place of an exception on this block (the diagnostic
pulse, the fault mark, the edge trigger and its end), and the reset action.
-/

namespace Sys2Proof.Machine

/-- What an act or a step answers. -/
abbrev Result := Host.Outcome State Fault Refusal

/-- Go on with the value of an operation, or stop with the fault it raised: an act that raises a fault writes nothing else
(60_exceptions.md R246). -/
def withValue {α : Type} (r : Except Fault α) (k : α → Result) : Result :=
  match r with
  | .ok v => k v
  | .error f => .fault f

/-! ### Storage (20_memory.md R80 to R82) -/

/-- The value slot `i` holds, or none when it was never written. -/
def slotAt : Storage → Nat → Option Slot
  | [], _ => none
  | (j, w) :: rest, i => if i = j then some w else slotAt rest i

/-- The storage with `v` in slot `i`; indices stay strictly rising. -/
def slotPut : Storage → Nat → Slot → Storage
  | [], i, v => [(i, v)]
  | (j, w) :: rest, i, v =>
    if i < j then (i, v) :: (j, w) :: rest
    else if i = j then (i, v) :: rest
    else (j, w) :: slotPut rest i v

/-- The canonical form of the storage: indices strictly rising and below `n`. Every listed slot holds a value, so no entry equals
what an unlisted slot reads as. -/
abbrev Storage.wf (n : Nat) (b : Storage) : Prop :=
  b.Pairwise (fun x y => x.1 < y.1) ∧ ∀ x ∈ b, x.1 < n

/-- `BufRead(i)`, the only storage read (R81). -/
def bufRead (s : State) (i : Nat) : Except Fault Slot :=
  if s.cfg.n ≤ i then .error (.indexOutOfRange i)
  else
    match slotAt s.buf i with
    | none => .error (.uninitSlotRead i)
    | some v => .ok v

/-- `Count()`, the number of stored bytes (43_buffer.md R211). -/
def count (s : State) : Except Fault Nat :=
  if s.cfg.n ≤ s.head then .error (.indexOutOfRange s.head)
  else .ok ((s.tail + s.cfg.n - s.head) % s.cfg.n)

/-- An index advanced by `k` modulo `N` (00_scope.md R24). -/
def advanceIndex (s : State) (i k : Nat) : Nat := (i + k) % s.cfg.n

/-- The index `k` before `i` modulo `N` (43_buffer.md R215, R216). -/
def backIndex (s : State) (i k : Nat) : Nat := (i + s.cfg.n - k) % s.cfg.n

/-- The store of `Enqueue` on a buffer that is not full: `BufWrite(TAIL, v)`, then `TAIL` advances (R82, R210). -/
@[simps]
def State.push (s : State) (v : Slot) : State :=
  { s with buf := slotPut s.buf s.tail v, tail := advanceIndex s s.tail 1 }

/-- `Enqueue` on a full buffer: `OVF` is set and the byte is dropped (R210). -/
@[simps]
def State.overflow (s : State) : State := { s with ovf := true }

/-- `Enqueue(v)` (43_buffer.md R210). `BufWrite` never sees an index at or beyond `N` in a state a run reaches (20_memory.md R82); in any
other state it faults (DESIGN CHOICE, safe; log 8). -/
def enqueue (s : State) (v : Slot) : Result :=
  if s.cfg.n ≤ s.head then .fault (.indexOutOfRange s.head)
  else if advanceIndex s s.tail 1 = s.head then .next s.overflow
  else if s.cfg.n ≤ s.tail then .fault (.indexOutOfRange s.tail)
  else .next (s.push v)

/-! ### Line state (40_line_state.md R141, R142) -/

/-- The `RX_EN` column of R142. -/
def rxEnOf : LineState → Bool
  | .listening => true
  | .disabled | .holding | .transmitting | .interruptEnabled => false

/-- The `TX_EN` column of R142. -/
def txEnOf (c : Cfg) : LineState → Bool
  | .disabled => c.disabledTxEnable == .active
  | .listening => false
  | .holding | .transmitting | .interruptEnabled => true

/-- The `TX_DATA` column of R142: the level after, from the level before. -/
def txDataOf : LineState → Level → Level
  | .holding, _ => .low
  | .interruptEnabled, _ => .high
  | .disabled, l | .transmitting, l | .listening, l => l

/-- The `RX_PULL` column of R142: the pull mode after, from the one before. -/
def rxPullOf : LineState → Pull → Pull
  | .interruptEnabled, _ => .up
  | .disabled, p | .holding, p | .transmitting, p | .listening, p => p

/-- The `ARMED` column of R142: the bit after, from the bit before. -/
def armedOf : LineState → Bool → Bool
  | .interruptEnabled, _ => true
  | .disabled, _ => false
  | .holding, a | .transmitting, a | .listening, a => a

/-- `SetState(ls)` (R141), the only action that writes `LINE_STATE`, `ARMED`, `TX_EN`, `RX_EN` and `RX_PULL` (R140). -/
@[simps]
def State.setState (s : State) (ls : LineState) : State :=
  { s with
    lineState := ls
    armed := armedOf ls s.armed
    txEn := txEnOf s.cfg ls
    rxEn := rxEnOf ls
    txData := txDataOf ls s.txData
    rxPull := rxPullOf ls s.rxPull }

/-! ### The command port and its results (30_encoding.md R103, R112; 43_buffer.md R211) -/

/-- `Respond(v)` (43_buffer.md R211). -/
@[simps]
def State.respond (s : State) (v : Word) : State := { s with rsp := v, rspValid := true }

/-- The command just performed occupies the port for `d` ticks, this one included: `HREM <- d - 1` (30_encoding.md R103). -/
@[simps]
def State.occupy (s : State) (d : Nat) : State := { s with hrem := d - 1 }

/-- `rsp_valid <- 0; diag_valid <- 0; diag_code <- 0` (30_encoding.md R103). -/
@[simps]
def State.clearPulses (s : State) : State :=
  { s with rspValid := false, diagValid := false, diagCode := 0#3 }

/-! ### The waveform sequencer (41_transmit.md R160) -/

/-- `waveLevel(segs, j)`: the level of the segment that tick `j` lies in; none at and beyond the end. -/
def waveLevel : List Segment → Nat → Option Level
  | [], _ => none
  | g :: rest, j => if j < g.ticks then some g.level else waveLevel rest (j - g.ticks)

/-- The total duration `D` of a waveform. -/
def waveTicks : List Segment → Nat
  | [] => 0
  | g :: rest => g.ticks + waveTicks rest

/-- The level driven at tick `j` of a waveform. Beyond its end, which no run reaches, no waveform is playing and `TX_DATA` keeps its
level (41_transmit.md R167; DEDUCED, log 9). -/
def driven (segs : List Segment) (j : Nat) (before : Level) : Level := (waveLevel segs j).getD before

/-- `StartWave(segs)` (R160). -/
@[simps]
def State.startWave (s : State) (segs : List Segment) : State :=
  { s with wsegs := segs, wpos := 0, txData := driven segs 0 s.txData }

/-- A tick in which the port is occupied (30_encoding.md R103, the branch `HREM > 0`). -/
@[simps]
def State.continueCommand (s : State) : State :=
  { s with
    hrem := s.hrem - 1
    wpos := if s.wsegs = [] then s.wpos else if s.hrem - 1 = 0 then 0 else s.wpos + 1
    wsegs := if s.hrem - 1 = 0 then [] else s.wsegs
    txData := if s.wsegs = [] then s.txData else driven s.wsegs (s.wpos + 1) s.txData }

/-! ### In the place of exceptions (60_exceptions.md R240 to R250) -/

/-- `raise Diag(code)`: a one-tick pulse and no other effect (R243). -/
@[simps]
def State.raiseDiag (s : State) (code : BitVec 3) : State := { s with diagValid := true, diagCode := code }

/-- The code of `BadState` (R243). -/
def diagBadState : BitVec 3 := 1#3

/-- The code of `IllegalCmd` (R243). -/
def diagIllegalCmd : BitVec 3 := 2#3

/-- `raise Fault(kind)`: the mark is set and nothing else is written (R246). -/
@[simps]
def State.raiseFault (s : State) (k : Fault) : State := { s with faultMark := some k }

/-- Taking the edge (R248; 42_receive.md R182): the decoder enters `Busy` with a cleared working byte, and a latched edge is consumed. No
other state is saved or changed. -/
@[simps]
def State.startDecode (s : State) : State := { s with dseq := .busy 0 0#7 .low .low, edgePend := false }

/-- A trigger the entry guard refuses: the edge is consumed and the decoder stays `Idle` (42_receive.md R181). -/
@[simps]
def State.refuseEdge (s : State) : State := { s with edgePend := false }

/-- The return from a decode (R249): `DSEQ <- Idle`; nothing is restored. -/
@[simps]
def State.endDecode (s : State) : State := { s with dseq := .idle }

/-- `Fail()`: `PERR` is set, and the forced disable (42_receive.md R189, R190). -/
@[simps]
def State.fail (s : State) : State := { s.setState .disabled with perr := true }

/-! ### Ticks and reset -/

/-- The inputs of the coming tick and its order σ: the head of the list, or a free value where the list is empty (log 2). -/
def State.currentIn (s : State) : TickIn :=
  match s.inputs with
  | [] => Config.freeTickIn s.tick
  | x :: _ => x

/-- The coming tick's inputs are taken. -/
@[simps]
def State.advance (s : State) : State := { s with inputs := s.inputs.tail, tick := s.tick + 1 }

/-- The reset action (70_reset_and_hazards.md R270). The configuration is not state and stays; so do the model's own fields. It runs only
with `FAULT = None`, which it leaves. -/
@[simps]
def State.resetBlock (s : State) : State :=
  { s with
    lineState := .disabled
    armed := false
    txEn := txEnOf s.cfg .disabled
    rxEn := false
    txData := .low
    rxPull := .none
    buf := []
    head := 0
    tail := 0
    ovf := false
    perr := false
    rsp := 0x0000#16
    hrem := 0
    wsegs := []
    wpos := 0
    dseq := .idle
    rxPrev := .low
    edgePend := false
    cmdReady := false
    rspValid := false
    diagValid := false
    diagCode := 0#3 }

end Sys2Proof.Machine
end

