-- ==== Sys2Proof/Machine/Operands.lean ====
section
/-!
DEFINITION. The operand forms (30_encoding.md R101, R124), the result encodings (R112), the map between levels and bits (00_scope.md
R25) and the durations (30_encoding.md R102; 70_reset_and_hazards.md R286).
-/

namespace Sys2Proof.Machine

/-- The state a code names, if it names one: codes 5..255 are unrecognized (R124). -/
def stateOfCode (c : Byte) : Option LineState :=
  match c.toNat with
  | 0 => some .disabled
  | 1 => some .holding
  | 2 => some .transmitting
  | 3 => some .listening
  | 4 => some .interruptEnabled
  | _ => none

/-- The 3-bit code of a state (R124; 10_state.md R41). -/
def codeOfState : LineState → BitVec 3
  | .disabled => 0#3
  | .holding => 1#3
  | .transmitting => 2#3
  | .listening => 3#3
  | .interruptEnabled => 4#3

/-- The 2-bit value of the pull control (10_state.md R40, R46). -/
def codeOfPull : Pull → BitVec 2
  | .none => 0#2
  | .up => 1#2
  | .down => 2#2

/-- The operand of `ADVH` as a count (R101). -/
def argCount (n : Byte) : Nat := n.toNat

/-- The −1 of a result (R112; 00_scope.md R24). -/
def minusOne : Word := 0xFFFF#16

/-- `zext_16(count)` (R112). A count of more than 16 bits, which only a buffer of more than 65536 slots reaches, has no stated result: a
free value (DESIGN CHOICE, safe; log 7). -/
def countResult (n : Nat) : Word := if n < 65536 then BitVec.ofNat 16 n else Config.freeCount n

/-- `zext_16(byte)` (R112). -/
def byteResult (v : Slot) : Word := v.setWidth 16

/-- `0x0001` for true, `0x0000` for false (R112). -/
def boolResult (b : Bool) : Word := if b then 0x0001#16 else 0x0000#16

/-- The value line feed (43_buffer.md R215). -/
def lineFeed : Slot := 10#7

/-- The value carriage return (43_buffer.md R216). -/
def carriageReturn : Slot := 13#7

/-- The tx-data level of a binary digit: 1 is Mark, which drives `LOW`; 0 is Space, which drives `HIGH` (R25; 41_transmit.md R163). That 1 is
Mark is the spec's general knowledge (log 11). -/
def txLevelOfBit (b : Bool) : Level := if b then .low else .high

/-- The binary digit of an rx-data level: `HIGH` is 1 (42_receive.md R185, R196; log 11). -/
def bitOfRxLevel : Level → Bool
  | .high => true
  | .low => false

/-- The duration of `BEGIN` and `SETST 4`: `max(1, T_SETTLE)` (40_line_state.md R144). -/
def settleTicks (c : Cfg) : Nat := max 1 c.tSettle

/-- The duration of every one-tick command (R286). -/
def oneTick : Nat := 1

/-- The wake waveform: break (Space, `HIGH`), then mark (Mark, `LOW`) (R122; 41_transmit.md R164). -/
def wakeSegs (c : Cfg) : List Segment := [⟨.high, c.tBreak⟩, ⟨.low, c.tMark⟩]

/-- The duration of `WAKE` (R286). -/
def wakeTicks (c : Cfg) : Nat := c.tBreak + c.tMark

/-- The duration of `WCHAR` (R286). -/
def frameTicks (c : Cfg) : Nat := 10 * c.tBitTx

end Sys2Proof.Machine
end

