-- ==== Sys2Proof/Machine/Flags.lean ====
section
/-!
DEFINITION. The flag computations: the parity fold and the transmitted byte (41_transmit.md R161, R162), the buffer's empty and full tests
(43_buffer.md R211), when `BEGIN` clears `PERR` (40_line_state.md R146), the falling edge (42_receive.md R180) and the parity check
(R188).
-/

namespace Sys2Proof.Machine

/-- `NIB_PAR[i]`: bit `i` of 0x6996 (R161). -/
def nibPar (i : BitVec 4) : Bool := (0x6996#16).getLsbD i.toNat

/-- `parity8(b)`: the high nibble folded onto the low one, then the table (R161). -/
def parity8 (b : Byte) : Bool := nibPar (b.extractLsb' 4 4 ^^^ b.extractLsb' 0 4)

/-- A bit in place 7 of a byte. -/
def bitSeven (b : Bool) : Byte := if b then 0x80#8 else 0x00#8

/-- `zext_8(b[6:0])`. -/
def lowSeven (b : Byte) : Byte := b &&& 0x7F#8

/-- `txByte(b)` in each mode (R162). -/
def txByte (m : TxBit7Mode) (b : Byte) : Byte :=
  match m with
  | .fold8Replace => lowSeven b ||| bitSeven (parity8 b)
  | .fold8Or => b ||| bitSeven (parity8 b)
  | .mask7 => lowSeven b ||| bitSeven (parity8 (lowSeven b))

/-- The buffer is empty (R211). -/
def isEmpty (s : State) : Bool := s.head == s.tail

/-- The buffer is full: one slot is reserved (R211). -/
def isFull (s : State) : Bool := advanceIndex s s.tail 1 == s.head

/-- Whether `BEGIN` clears `PERR` (40_line_state.md R146). -/
def beginClears (s : State) : Bool := s.cfg.beginClear == .always || s.lineState == .disabled

/-- A falling edge on rx-data (R180). -/
def fallingEdge (s : State) (rx : Level) : Bool := s.rxPrev == .high && rx == .low

/-- The received parity digit matches the data (R188). -/
def parityMatches (w : Slot) (p : Level) : Bool := parity8 (w.setWidth 8) == bitOfRxLevel p

end Sys2Proof.Machine
end

