-- ==== Sys2Proof/Machine/Buffer.lean ====
section
/-!
DEFINITION. The buffer and status commands `AVAIL`, `PEEK`, `READ`, `ENDLF`, `ENDCR`, `FLUSH`, `ADVH`, `HASOVF`, `HASPE` (43_buffer.md R212
to R220). Each lasts one tick.
-/

namespace Sys2Proof.Machine

/-- A query command's end: the result, and one tick on the port. -/
@[simps!]
def State.answer (s : State) (v : Word) : State := (s.respond v).occupy oneTick

/-- `AVAIL` (R212). -/
def execAvail (s : State) : Result :=
  if s.ovf then .next (s.answer minusOne)
  else withValue (count s) (fun n => .next (s.answer (countResult n)))

/-- `PEEK` (R213). -/
def execPeek (s : State) : Result :=
  if isEmpty s then .next (s.answer minusOne)
  else withValue (bufRead s s.head) (fun v => .next (s.answer (byteResult v)))

/-- The consumption of the oldest byte: `HEAD` advances and `OVF` is cleared (R214). -/
@[simps]
def State.pop (s : State) : State := { s with head := advanceIndex s s.head 1, ovf := false }

/-- `READ` (R214). -/
def execRead (s : State) : Result :=
  if isEmpty s then .next (s.answer minusOne)
  else withValue (bufRead s s.head) (fun v => .next (s.pop.answer (byteResult v)))

/-- Whether at least `back` bytes are stored and the byte `back` before `TAIL` is `v`. The slot is read only when at least `back`
bytes are stored (R215, R216). -/
def recentIs (s : State) (back : Nat) (v : Slot) : Except Fault Bool :=
  match count s with
  | .error f => .error f
  | .ok n =>
    if back ≤ n then
      match bufRead s (backIndex s s.tail back) with
      | .error f => .error f
      | .ok w => .ok (w == v)
    else .ok false

/-- `ENDLF` (R215). -/
def execEndLf (s : State) : Result :=
  withValue (recentIs s 1 lineFeed) (fun b => .next (s.answer (boolResult b)))

/-- `ENDCR` (R216). -/
def execEndCr (s : State) : Result :=
  withValue (recentIs s 2 carriageReturn) (fun b => .next (s.answer (boolResult b)))

/-- `HEAD`, `TAIL`, `OVF` and `PERR` to zero; the slots keep their contents (R218). -/
@[simps]
def State.emptyBuffer (s : State) : State := { s with head := 0, tail := 0, ovf := false, perr := false }

/-- `FLUSH` (R218). -/
def execFlush (s : State) : Result := .next (s.emptyBuffer.occupy oneTick)

/-- `HEAD` advanced by `k`, modulo `N` or, without wrap, as a natural number (R217). -/
@[simps]
def State.advanceHead (s : State) (k : Nat) : State :=
  { s with head := if s.cfg.advanceHeadWrap then advanceIndex s s.head k else s.head + k }

/-- `ADVH n` (R217): not clamped to the count. -/
def execAdvH (n : Byte) (s : State) : Result := .next ((s.advanceHead (argCount n)).occupy oneTick)

/-- `HASOVF` (R219). -/
def execHasOvf (s : State) : Result := .next (s.answer (boolResult s.ovf))

/-- `HASPE` (R220). -/
def execHasPe (s : State) : Result := .next (s.answer (boolResult s.perr))

end Sys2Proof.Machine
end

