-- ==== Sys2Proof/Machine/LineControl.lean ====
section
/-!
DEFINITION. The line-state commands `BEGIN`, `END`, `HOLD`, `SETST` (40_line_state.md R145 to R149) and the performance of an illegal
word (30_encoding.md R104).
-/

namespace Sys2Proof.Machine

/-- `BEGIN`'s conditional clearing of `PERR` (R146). -/
@[simps]
def State.beginClear (s : State) : State := { s with perr := s.perr && !beginClears s }

/-- `BEGIN` (R145). -/
def execBegin (s : State) : Result :=
  .next ((s.beginClear.setState .interruptEnabled).occupy (settleTicks s.cfg))

/-- `END` (R147). -/
def execEnd (s : State) : Result := .next ((s.setState .disabled).occupy oneTick)

/-- `HOLD` (R148). -/
def execHold (s : State) : Result := .next ((s.setState .holding).occupy oneTick)

/-- `SETST c` (R149): a recognized code sets that state; any other raises `Diag(BadState)` and writes no register (R143). -/
def execSetSt (c : Byte) (s : State) : Result :=
  match stateOfCode c with
  | some .interruptEnabled => .next ((s.setState .interruptEnabled).occupy (settleTicks s.cfg))
  | some ls => .next ((s.setState ls).occupy oneTick)
  | none => .next ((s.raiseDiag diagBadState).occupy oneTick)

/-- Performing `Illegal`: `Diag(IllegalCmd)`, one tick, no other state (30_encoding.md R104). -/
def performIllegal (s : State) : State := (s.raiseDiag diagIllegalCmd).occupy oneTick

end Sys2Proof.Machine
end

