-- ==== Sys2Proof/Machine/Transmit.lean ====
section
/-!
DEFINITION. The transmit encoder: the character frame (30_encoding.md R120; 41_transmit.md R163) and the commands `WAKE` and `WCHAR`
(R164, R165).
-/

namespace Sys2Proof.Machine

/-- `frameSegs(b)` (R163): start bit, data bits 0..6 and parity (bit 7) of `txByte(b)`, stop bit; each `T_BIT_TX` ticks. -/
def frameSegs (c : Cfg) (b : Byte) : List Segment :=
  [⟨.high, c.tBitTx⟩]
    ++ (List.range 8).map (fun i => ⟨txLevelOfBit ((txByte c.txBit7Mode b).getLsbD i), c.tBitTx⟩)
    ++ [⟨c.txStopLevel, c.tBitTx⟩]

/-- `WAKE` (R164). -/
def execWake (s : State) : Result :=
  .next (((s.setState .transmitting).startWave (wakeSegs s.cfg)).occupy (wakeTicks s.cfg))

/-- `WCHAR b` (R165). It neither reads nor writes the line state (R168). -/
def execWChar (b : Byte) (s : State) : Result :=
  .next ((s.startWave (frameSegs s.cfg b)).occupy (frameTicks s.cfg))

end Sys2Proof.Machine
end

