-- ==== Sys2Proof/Machine/Dispatch.lean ====
section
/-!
DEFINITION. One arm per command (30_encoding.md R102): `perform c` and `HREM <- duration(c) - 1` of R103.
-/

namespace Sys2Proof.Machine

def exec (i : Instr) (s : State) : Host.Outcome State Fault Refusal :=
  match i with
  | .beginRx => Sys2Proof.Machine.execBegin s
  | .endRx => Sys2Proof.Machine.execEnd s
  | .hold => Sys2Proof.Machine.execHold s
  | .setSt c => Sys2Proof.Machine.execSetSt c s
  | .wake => Sys2Proof.Machine.execWake s
  | .wChar b => Sys2Proof.Machine.execWChar b s
  | .avail => Sys2Proof.Machine.execAvail s
  | .peek => Sys2Proof.Machine.execPeek s
  | .read => Sys2Proof.Machine.execRead s
  | .endLf => Sys2Proof.Machine.execEndLf s
  | .endCr => Sys2Proof.Machine.execEndCr s
  | .flush => Sys2Proof.Machine.execFlush s
  | .advH n => Sys2Proof.Machine.execAdvH n s
  | .hasOvf => Sys2Proof.Machine.execHasOvf s
  | .hasPe => Sys2Proof.Machine.execHasPe s

end Sys2Proof.Machine
end

