-- ==== Sys2Proof/Machine/Receive.lean ====
section
/-!
DEFINITION. The receive decoder: the sampling instants (42_receive.md R183), the outcome function (R188) and `DecoderAct` (R180 to R194).
-/

namespace Sys2Proof.Machine

/-! ### Sampling instants (R183) -/

/-- `s_RS`: the start-bit re-sample. -/
def instResample (c : Cfg) : Nat := c.rxSched.rResample

/-- `s_D(k)`: data bit `k`. -/
def instData (c : Cfg) (k : Nat) : Nat := c.rxSched.rResample + c.rxSched.tFirst + (k + 1) * c.rxSched.tRxBit

/-- `s_P`: the parity bit. -/
def instParity (c : Cfg) : Nat := instData c 6 + c.rxSched.tParGap

/-- `s_S`: the stop bit. -/
def instStop (c : Cfg) : Nat := instData c 6 + c.rxSched.tStopGap

/-- `s_done`: the outcome. -/
def instDone (c : Cfg) : Nat :=
  match c.parityMode with
  | .gated => max (instStop c) (instParity c)
  | .unconditional => instStop c

/-! ### Outcome (R188, R251) -/

/-- What a completed decode does (R188). -/
inductive RxOutcome where
  | framingError
  | parityFault
  | byte (v : Slot)
deriving DecidableEq, Repr

/-- `Outcome(W, P, S)` (R188). -/
def rxOutcome (m : ParityMode) (w : Slot) (p st : Level) : RxOutcome :=
  if st = .low then .framingError
  else
    match m with
    | .unconditional => .parityFault
    | .gated => if parityMatches w p then .byte w else .parityFault

/-- `Complete(W, P, S)` (R188, R191). -/
def complete (s : State) (w : Slot) (p st : Level) : Result :=
  match rxOutcome s.cfg.parityMode w p st with
  | .framingError => .next s.fail
  | .parityFault => .next s.fail
  | .byte v => enqueue s v

/-! ### The act (R180) -/

/-- A working byte with bit `k` set or cleared (R185). -/
def putBit (w : Slot) (k : Nat) (b : Bool) : Slot :=
  if b then w ||| ((1#7) <<< k) else w &&& ~~~((1#7) <<< k)

/-- The working byte after the data samples of offset `c`: `for k in 0..6: if c = s_D(k)` (R180, R185). -/
def sampleData (cfg : Cfg) (c : Nat) (rx : Level) (w : Slot) : Slot :=
  (List.range 7).foldl (fun u k => if c = instData cfg k then putBit u k (bitOfRxLevel rx) else u) w

/-- The parity sample: at `s_P`, in `Gated` mode only (R186). -/
def sampleParity (cfg : Cfg) (c : Nat) (rx p : Level) : Level :=
  if cfg.parityMode = .gated ∧ c = instParity cfg then rx else p

/-- An act's next state with the decode ended (R192). -/
def endingDecode (r : Result) : Result :=
  match r with
  | .next s => .next s.endDecode
  | .fault k => .fault k
  | .refused x => .refused x

/-- The decoder in `Idle` (R180): disarmed, no trigger, refused by the guard (R181), or entered (R182). -/
def decoderIdle (rx : Level) (s : State) : State :=
  if s.armed = false then s.refuseEdge
  else if fallingEdge s rx = false ∧ s.edgePend = false then s
  else if s.perr then s.refuseEdge
  else s.startDecode

/-- A falling edge seen while `Busy`: latched with `EDGE_LATCH`, else ignored (R193). -/
@[simps]
def State.latchEdge (s : State) (rx : Level) : State :=
  { s with edgePend := s.edgePend || (fallingEdge s rx && s.cfg.edgeLatch) }

/-- The state of the decoder at a later offset. -/
@[simps]
def State.decoding (s : State) (c : Nat) (w : Slot) (p st : Level) : State := { s with dseq := .busy c w p st }

/-- The end of offset `c` in `Busy`: the outcome at `s_done`, else the decode goes on (R180). -/
def finishOffset (c : Nat) (w : Slot) (p st : Level) (s : State) : Result :=
  if c = instDone s.cfg then endingDecode (complete s w p st) else .next (s.decoding c w p st)

/-- The decoder in `Busy` at offset `c`, after the increment of `c` (R180). -/
def decoderOffset (rx : Level) (c : Nat) (w : Slot) (p st : Level) (s : State) : Result :=
  if c = instResample s.cfg ∧ rx = .high then .next s.endDecode
  else if c = instStop s.cfg then
    if rx = .low then .next s.fail.endDecode
    else finishOffset c (sampleData s.cfg c rx w) (sampleParity s.cfg c rx p) rx s
  else finishOffset c (sampleData s.cfg c rx w) (sampleParity s.cfg c rx p) st s

/-- `DecoderAct(rx)` (R180). It reads neither `ARMED` nor `LINE_STATE` while `Busy` (R194). -/
def decoderAct (rx : Level) (s : State) : Result :=
  match s.dseq with
  | .idle => .next (decoderIdle rx s)
  | .busy c w p st => decoderOffset rx (c + 1) w p st (s.latchEdge rx)

end Sys2Proof.Machine
end

