-- ==== Sys2Proof/Machine/Tick.lean ====
section
/-!
DEFINITION. One tick (20_memory.md R88): `HostAct` (30_encoding.md R103), the two acts in the tick's order, the reset tick (70_reset_and_hazards.md
R270), and how a word is put on the command port.
-/

namespace Sys2Proof.Machine

/-- Performing the word the port accepts (R103, R104). -/
def performWord (w : Word) (s : State) : Result :=
  match decode w with
  | .ok i => exec i s
  | .error _ => .next (performIllegal s)

/-- `HostAct(cmd)` (R103). -/
def hostAct (io : TickIn) (s : State) : Result :=
  if 0 < s.hrem then .next s.clearPulses.continueCommand
  else if io.cmdValid then performWord io.cmdWord s.clearPulses
  else .next s.clearPulses

/-- The start of a tick with `rst = 0`: `cmd_ready` is 1 exactly when `HREM = 0` (R103; 10_state.md R55), and the pulses of the tick
before end (60_exceptions.md R243). So the accepting tick of `BEGIN` shows 1 and the 999 ticks after it show 0 with the defaults, as V-LS-4 has
it, where the example of 40_line_state.md R145 says 1000 (DESIGN CHOICE, unsafe; log 21). -/
@[simps]
def State.beginTick (s : State) : State :=
  { s with cmdReady := decide (s.hrem = 0), rspValid := false, diagValid := false, diagCode := 0#3 }

/-- The end of a tick: `RX_PREV <- rx`, whatever the other state (R88; 10_state.md R57). -/
@[simps]
def State.endTick (s : State) (rx : Level) : State := { s with rxPrev := rx }

/-- One act after another; the second reads the state the first left (R88). An act that raises a fault writes nothing else, the mark is
set, and the model stops: no later act runs (60_exceptions.md R241, R246; DESIGN CHOICE, safe; log 5). -/
def thenAct (r : Result) (before : State) (k : State → Result) : Result :=
  match r with
  | .next s => k s
  | .fault f => .next (before.raiseFault f)
  | .refused x => .refused x

/-- Two acts in order. -/
def bothActs (first second : State → Result) (s : State) : Result :=
  thenAct (first s) s (fun t => thenAct (second t) t .next)

/-- The two agents' acts in the order σ of the tick (R88). -/
def agentsAct (io : TickIn) (s : State) : Result :=
  match io.order with
  | .hostFirst => bothActs (hostAct io) (decoderAct io.rxData) s
  | .decoderFirst => bothActs (decoderAct io.rxData) (hostAct io) s

/-- A result with `RX_PREV` updated. -/
def endingTick (r : Result) (rx : Level) : Result :=
  match r with
  | .next s => .next (s.endTick rx)
  | .fault f => .fault f
  | .refused x => .refused x

/-- A tick with the given inputs (R88, R270). -/
def tickWith (io : TickIn) (s : State) : Result :=
  if io.rst then .next s.resetBlock
  else endingTick (agentsAct io s.beginTick) io.rxData

/-- The coming tick. -/
def runTick (s : State) : Result := tickWith s.currentIn s.advance

/-- The coming tick's inputs with the word `w` presented, no reset, and the rest as it stood; where the list is empty, the rx-data level of
the tick before, so no edge, and the host first. -/
def presentWord (s : State) (w : Word) : TickIn :=
  match s.inputs with
  | [] => { rst := false, cmdValid := true, cmdWord := w, rxData := s.rxPrev, order := .hostFirst }
  | x :: _ => { x with rst := false, cmdValid := true, cmdWord := w }

/-- The word `w` presented to a free port in the coming tick: the port is made free and the model's fault mark is cleared (log 3). -/
@[simps]
def State.presenting (s : State) (w : Word) : State :=
  { s with hrem := 0, wsegs := [], wpos := 0, faultMark := none, inputs := presentWord s w :: s.inputs.tail }

end Sys2Proof.Machine
end

