-- ==== Sys2Proof/Machine/Step.lean ====
section
/-!
DEFINITION. One step of the model is one tick (00_scope.md R21, R27). A configuration that breaks R23 is refused before any tick (60_exceptions.md
R240, R241); a state whose fault mark is set takes no step (10_state.md R59, 60_exceptions.md R246).
-/

namespace Sys2Proof.Machine

/-- One step. -/
def step (s : State) : Host.Outcome State Fault Refusal :=
  if s.cfg.wellFormed = false then .refused .configInvalid
  else
    match s.faultMark with
    | some k => .fault k
    | none => runTick s

/-- `s` with a command word presented to the port in the next tick (log 3). -/
def State.withFetchWord (s : State) (nbits w : Nat) : State := s.presenting (tableWord nbits w)

end Sys2Proof.Machine
end

