-- ==== Sys2Proof/Machine/Timing.lean ====
section
/-!
DEFINITION. The timing tables: command durations (70_reset_and_hazards.md R286), decode durations (42_receive.md R195; R287), when a
sampling schedule fits an incoming bit period (42_receive.md R197), and when the wake sequence meets SDI-12 (41_transmit.md R170).
-/

namespace Sys2Proof.Machine

/-- The duration of a command (R286; 30_encoding.md R102). -/
def duration (c : Cfg) : Instr → Nat
  | .beginRx => settleTicks c
  | .setSt s => if s = 4#8 then settleTicks c else oneTick
  | .wake => wakeTicks c
  | .wChar _ => frameTicks c
  | .endRx | .hold | .avail | .peek | .read | .endLf | .endCr | .flush | .advH _ | .hasOvf | .hasPe => oneTick

/-- The ticks a spurious edge lasts, counting both ends (R195, R287). -/
def spuriousTicks (c : Cfg) : Nat := instResample c + 1

/-- The ticks a framing error lasts (R195, R287). -/
def framingTicks (c : Cfg) : Nat := instStop c + 1

/-- The ticks a completed decode lasts (R195, R287). -/
def decodeTicks (c : Cfg) : Nat := instDone c + 1

/-- Offset `o` lies in slot `j` of a frame of bit period `num / den` ticks: `j·T ≤ o < (j + 1)·T` (R197; log 17). -/
def inSlot (num den j o : Nat) : Bool := decide (j * num ≤ o * den) && decide (o * den < (j + 1) * num)

/-- The schedule decodes frames of bit period `num / den` ticks correctly: every sample falls in its own bit cell (R197). -/
def fitsPeriod (c : Cfg) (num den : Nat) : Bool :=
  inSlot num den 0 (instResample c) &&
    (List.range 7).all (fun k => inSlot num den (k + 1) (instData c k)) &&
    inSlot num den 9 (instStop c) &&
    (c.parityMode == .unconditional || inSlot num den 8 (instParity c))

/-- The wake sequence meets the SDI-12 bounds (R170); an advisory check, not part of well-formedness. -/
def wakeConformant (c : Cfg) : Bool :=
  decide (12000 ≤ c.tBreak) && decide (8330 ≤ c.tMark) && decide (c.tMark < 100000)

end Sys2Proof.Machine
end

