-- ==== Sys2Proof/Machine/Asm.lean ====
section
/-!
DEFINITION. The assembler of the command set: one command a line (30_encoding.md R110) and the pseudo-instruction `SENDCMD` (R111; 41_transmit.md
R166). A line is a list of characters. Points the spec leaves open are log 14.
-/

namespace Sys2Proof.Machine

/-- The expansion of `SENDCMD "text"` (R111): `WAKE`, one `WCHAR` per byte, `SETST Listening`. No terminator is added. -/
def sendCmd (text : List Byte) : List Instr := Instr.wake :: (text.map Instr.wChar ++ [Instr.setSt 3#8])

/-- The ticks a list of commands issued back to back occupies the port (41_transmit.md R166). -/
def totalTicks (c : Cfg) : List Instr → Nat
  | [] => 0
  | i :: rest => duration c i + totalTicks c rest

/-! ### Characters -/

/-- An upper-case letter for a letter; any other character as it is. Mnemonics are case-insensitive (R110). -/
def upperChar (ch : Char) : Char :=
  if 97 ≤ ch.toNat ∧ ch.toNat ≤ 122 then Char.ofNat (ch.toNat - 32) else ch

/-- A blank. -/
def isBlank (ch : Char) : Bool := ch.toNat == 32 || ch.toNat == 9

/-- The value of a digit in the given base (10 or 16). -/
def digitValue (base : Nat) (ch : Char) : Option Nat :=
  let n := ch.toNat
  let v := if 48 ≤ n ∧ n ≤ 57 then some (n - 48)
    else if 65 ≤ n ∧ n ≤ 70 then some (n - 55)
    else if 97 ≤ n ∧ n ≤ 102 then some (n - 87)
    else none
  v.bind (fun d => if d < base then some d else none)

/-- The value of a run of digits after a value so far. -/
def digitsValue (base : Nat) : Nat → List Char → Option Nat
  | acc, [] => some acc
  | acc, ch :: rest => (digitValue base ch).bind (fun d => digitsValue base (acc * base + d) rest)

/-- A number: decimal, or hexadecimal after `0x` (R110). -/
def numberValue : List Char → Option Nat
  | [] => none
  | '0' :: 'x' :: ch :: rest => digitsValue 16 0 (ch :: rest)
  | cs => digitsValue 10 0 cs

/-- A number 0..255 as an operand (R110). -/
def byteNumber (cs : List Char) : Option Byte :=
  (numberValue cs).bind (fun n => if n ≤ 255 then some (BitVec.ofNat 8 n) else none)

/-- The ASCII code of a character (R110; log 15). -/
def asciiCode (ch : Char) : Option Byte := if ch.toNat < 128 then some (BitVec.ofNat 8 ch.toNat) else none

/-- A character literal, or a number 0..255: the operand of `WCHAR` (R110). -/
def charOperand : List Char → Option Byte
  | ['\'', ch, '\''] => asciiCode ch
  | cs => byteNumber cs

/-- The names of the line states (R110). -/
def stateNames : List (List Char × Byte) :=
  [("Disabled".toList, 0#8), ("Holding".toList, 1#8), ("Transmitting".toList, 2#8), ("Listening".toList, 3#8),
    ("InterruptEnabled".toList, 4#8)]

/-- A state name, or a number 0..255: the operand of `SETST` (R110). -/
def stateOperand (cs : List Char) : Option Byte :=
  match stateNames.find? (fun p => p.1 == cs) with
  | some p => some p.2
  | none => byteNumber cs

/-- The text of `SENDCMD` after its opening quote, up to the closing quote: the escapes `\r` and `\n` stand for 13 and 10 (R111). -/
def quotedText : List Char → Option (List Byte)
  | ['"'] => some []
  | '\\' :: 'r' :: rest => (quotedText rest).map (fun bs => 13#8 :: bs)
  | '\\' :: 'n' :: rest => (quotedText rest).map (fun bs => 10#8 :: bs)
  | ch :: rest =>
    if ch = '"' ∨ ch = '\\' then none
    else (asciiCode ch).bind (fun b => (quotedText rest).map (fun bs => b :: bs))
  | [] => none

/-- `.word 0xNNNN`: a raw word (R110). -/
def rawWord : List Char → Option Word
  | ['0', 'x', a, b, c, d] => (digitsValue 16 0 [a, b, c, d]).map (fun n => BitVec.ofNat 16 n)
  | _ => none

/-! ### Lines -/

/-- A line without its comment: `;` starts one (R110), but not as a character literal or inside a quoted text (log 14). The flag says
whether the scan is inside a quoted text. -/
def dropComment : Bool → List Char → List Char
  | _, [] => []
  | false, '\'' :: ch :: '\'' :: rest => '\'' :: ch :: '\'' :: dropComment false rest
  | true, '\\' :: ch :: rest => '\\' :: ch :: dropComment true rest
  | inText, ch :: rest =>
    if ch = ';' ∧ inText = false then []
    else ch :: dropComment (if ch = '"' then !inText else inText) rest

/-- A line without the blanks at its ends. -/
def trimBlanks (cs : List Char) : List Char := ((cs.dropWhile isBlank).reverse.dropWhile isBlank).reverse

/-- The mnemonics that take no operand. -/
def plainMnemonics : List (List Char × Instr) :=
  [("BEGIN".toList, .beginRx), ("END".toList, .endRx), ("HOLD".toList, .hold), ("WAKE".toList, .wake), ("AVAIL".toList, .avail),
    ("PEEK".toList, .peek), ("READ".toList, .read), ("ENDLF".toList, .endLf), ("ENDCR".toList, .endCr), ("FLUSH".toList, .flush),
    ("HASOVF".toList, .hasOvf), ("HASPE".toList, .hasPe)]

/-- The words of a mnemonic and its operand, in upper case for the mnemonic; an empty operand where the line has none. -/
def assembleParts (mnem arg : List Char) : Option (List Word) :=
  if arg = [] then ((plainMnemonics.find? (fun p => p.1 == mnem)).map (fun p => [encode p.2]))
  else if mnem = "SETST".toList then (stateOperand arg).map (fun c => [encode (.setSt c)])
  else if mnem = "WCHAR".toList then (charOperand arg).map (fun b => [encode (.wChar b)])
  else if mnem = "ADVH".toList then (byteNumber arg).map (fun n => [encode (.advH n)])
  else if mnem = ".WORD".toList then (rawWord arg).map (fun w => [w])
  else if mnem = "SENDCMD".toList then
    match arg with
    | '"' :: rest => (quotedText rest).map (fun bs => (sendCmd bs).map encode)
    | _ => none
  else none

/-- The words one line assembles to (R110, R111): none for a line that spells no command, no words for an empty line or a comment. -/
def assembleLine (line : List Char) : Option (List Word) :=
  let cs := trimBlanks (dropComment false line)
  if cs = [] then some []
  else
    let mnem := (cs.takeWhile (fun ch => !isBlank ch)).map upperChar
    let arg := (cs.dropWhile (fun ch => !isBlank ch)).dropWhile isBlank
    assembleParts mnem arg

end Sys2Proof.Machine
end

