-- ==== Sys2Proof/Machine/Ports.lean ====
section
/-!
DEFINITION. The output ports of 10_state.md R40 as a tick shows them, and the electrical levels of the enable pins (00_scope.md R19, R40).
-/

namespace Sys2Proof.Machine

/-- The output ports (R40), and the pins they drive. -/
structure PortsOut where
  cmdReady : Bool
  rspValid : Bool
  rspData : Word
  diagValid : Bool
  diagCode : BitVec 3
  txEn : Bool
  txData : Level
  rxEn : Bool
  rxPull : BitVec 2
  /-- The electrical level on pin `PINS.txEnable`. -/
  txEnPin : Level
  /-- The electrical level on pin `PINS.rxEnable`. -/
  rxEnPin : Level
deriving DecidableEq, Repr

/-- The electrical level on an enable pin: `EN_ACTIVE_LEVEL` when the logical enable is 1 and its opposite when it is 0 (R40). -/
def enablePin (c : Cfg) (en : Bool) : Level := if en then c.enActiveLevel else c.enActiveLevel.flip

/-- What the ports show in the tick that left this state (R40; 00_scope.md R27). -/
def State.portsOut (s : State) : PortsOut :=
  { cmdReady := s.cmdReady
    rspValid := s.rspValid
    rspData := s.rsp
    diagValid := s.diagValid
    diagCode := s.diagCode
    txEn := s.txEn
    txData := s.txData
    rxEn := s.rxEn
    rxPull := codeOfPull s.rxPull
    txEnPin := enablePin s.cfg s.txEn
    rxEnPin := enablePin s.cfg s.rxEn }

end Sys2Proof.Machine
end

