-- ==== Sys2Proof/Safety.lean ====
section
/-!
DEFINITION. What claims about the block are stated in: the invariants of its state, what it holds in the buffer, what a tick accepts, and
the end of a run (70_reset_and_hazards.md R288).
-/

namespace Sys2Proof.Machine

/-! ### Invariants -/

/-- The buffer: the storage in its canonical form, every index below `N` (10_state.md R53; 20_memory.md R82). -/
abbrev State.BufferInv (s : State) : Prop :=
  s.buf.wf s.cfg.n ∧ s.tail < s.cfg.n ∧ (s.cfg.advanceHeadWrap = true → s.head < s.cfg.n)

/-- The line state fixes both enables (40_line_state.md R142); the bus is armed in InterruptEnabled and not in Disabled (10_state.md
R42); an armed bus has its pull-up set, and no rule sets the pull-down (R46). -/
abbrev State.LineInv (s : State) : Prop :=
  s.txEn = txEnOf s.cfg s.lineState ∧ s.rxEn = rxEnOf s.lineState ∧
    (s.lineState = .interruptEnabled → s.armed = true) ∧ (s.lineState = .disabled → s.armed = false) ∧
    (s.armed = true → s.rxPull = .up) ∧ s.rxPull ≠ .down

/-- The waveform: while one plays, the port is occupied to its last tick, and the pin has the waveform's level of this tick
(41_transmit.md R160); otherwise the position is 0. -/
abbrev State.WaveInv (s : State) : Prop :=
  (s.wsegs = [] → s.wpos = 0) ∧
    (s.wsegs ≠ [] → 0 < s.hrem ∧ s.wpos + s.hrem + 1 = waveTicks s.wsegs ∧ waveLevel s.wsegs s.wpos = some s.txData)

/-- The decoder: a decode in progress has not reached its last offset (42_receive.md R195), and its stop sample is `HIGH` exactly from
`s_S` on, since a `LOW` one ends it (R186); no edge is pending without `EDGE_LATCH` (10_state.md R58). -/
def State.DecoderInv (s : State) : Prop :=
  (match s.dseq with
    | .idle => True
    | .busy c _ _ st => c < instDone s.cfg ∧ (st = .high ↔ instStop s.cfg ≤ c)) ∧
    (s.cfg.edgeLatch = false → s.edgePend = false)

/-- The diagnostic port: code 0 without a pulse, 1 or 2 with one (60_exceptions.md R243). -/
abbrev State.DiagInv (s : State) : Prop :=
  if s.diagValid = true then s.diagCode = diagBadState ∨ s.diagCode = diagIllegalCmd else s.diagCode = 0#3

/-! ### The buffer's contents -/

/-- The number of stored bytes as a number (43_buffer.md R211), where `HEAD` is below `N`. -/
def State.stored (s : State) : Nat := (s.tail + s.cfg.n - s.head) % s.cfg.n

/-- The live region, oldest first: what each slot `(HEAD + i) mod N` for `i < Count()` holds (R221). -/
def State.contents (s : State) : List (Option Slot) :=
  (List.range s.stored).map (fun i => slotAt s.buf ((s.head + i) % s.cfg.n))

/-- Every live slot holds a value (R221). -/
abbrev State.LiveWritten (s : State) : Prop := none ∉ s.contents

/-- The decoder's stores of `vs` in order. -/
def enqueueMany : List Slot → State → Result
  | [], s => .next s
  | v :: vs, s =>
    match enqueue s v with
    | .next t => enqueueMany vs t
    | r => r

/-- `k` `READ`s in a row: the results in order, and the state after. -/
def readMany : Nat → State → Option (List Word × State)
  | 0, s => some ([], s)
  | k + 1, s =>
    match exec .read s with
    | .next t => (readMany k t).map (fun p => (t.rsp :: p.1, p.2))
    | _ => none

/-! ### Runs -/

/-- In a tick that starts in `s` with inputs `io`, the port accepts the command `i` (30_encoding.md R103). -/
def accepts (io : TickIn) (s : State) (i : Instr) : Prop :=
  io.rst = false ∧ s.hrem = 0 ∧ io.cmdValid = true ∧ decode io.cmdWord = .ok i

/-- `k` steps, stopping at the first fault or refusal. -/
def runSteps : Nat → State → Result
  | 0, s => .next s
  | k + 1, s =>
    match step s with
    | .next t => runSteps k t
    | .fault f => .fault f
    | .refused x => .refused x

/-- The decoder alone over `k` ticks from tick `o` on, `line o` being the rx-data level of tick `o` (42_receive.md R180; `RX_PREV`
follows the line, 10_state.md R57). -/
def decodeRun (line : Nat → Level) : Nat → Nat → State → Result
  | _, 0, s => .next s
  | o, k + 1, s =>
    match decoderAct (line o) s with
    | .next t => decodeRun line (o + 1) k (t.endTick (line o))
    | r => r

/-- The rx-data level at offset `o` of a loop-back of the frame of `b`: the opposite of the tx-data level (42_receive.md R196). -/
def loopback (c : Cfg) (b : Byte) (o : Nat) : Level := ((waveLevel (frameSegs c b) o).getD .low).flip

/-- A run ends well in `s` when the tick given presents no command (70_reset_and_hazards.md R288). -/
def State.endsWell (s : State) (io : TickIn) : Bool :=
  s.faultMark == none && s.hrem == 0 && s.dseq == .idle && !io.cmdValid

end Sys2Proof.Machine
end

