-- ==== Sys2Proof/Laws/State.lean ====
section
/-!
SUPPORT. The field lemmas of the state's updates. Every update of Machine/Ops.lean and of the families is tagged so that its lemmas (one per
field, true by rfl, `@[simp]`, named `State.<update>_<field>`) stand beside it; here are the composed ones and the reset state's.
-/

namespace Sys2Proof.Machine

/-- The reset action on a state with the default configuration and no fault gives the reset state, up to the model's own fields and the
configuration it keeps. -/
theorem resetBlock_eq_reset (s : State) (hc : s.cfg = defaultCfg) (hf : s.faultMark = none) :
    s.resetBlock = { State.reset with inputs := s.inputs, tick := s.tick } := by
  simp [State.resetBlock, State.reset, hc, hf, txEnOf, defaultCfg]

@[simp] theorem txDataOf_disabled (l : Level) : txDataOf .disabled l = l := rfl
@[simp] theorem txDataOf_transmitting (l : Level) : txDataOf .transmitting l = l := rfl
@[simp] theorem txDataOf_listening (l : Level) : txDataOf .listening l = l := rfl
@[simp] theorem txDataOf_holding (l : Level) : txDataOf .holding l = .low := rfl
@[simp] theorem txDataOf_interruptEnabled (l : Level) : txDataOf .interruptEnabled l = .high := rfl
@[simp] theorem armedOf_disabled (a : Bool) : armedOf .disabled a = false := rfl
@[simp] theorem armedOf_interruptEnabled (a : Bool) : armedOf .interruptEnabled a = true := rfl
@[simp] theorem armedOf_holding (a : Bool) : armedOf .holding a = a := rfl
@[simp] theorem armedOf_transmitting (a : Bool) : armedOf .transmitting a = a := rfl
@[simp] theorem armedOf_listening (a : Bool) : armedOf .listening a = a := rfl
@[simp] theorem rxPullOf_interruptEnabled (p : Pull) : rxPullOf .interruptEnabled p = .up := rfl
@[simp] theorem rxPullOf_disabled (p : Pull) : rxPullOf .disabled p = p := rfl
@[simp] theorem rxPullOf_holding (p : Pull) : rxPullOf .holding p = p := rfl
@[simp] theorem rxPullOf_transmitting (p : Pull) : rxPullOf .transmitting p = p := rfl
@[simp] theorem rxPullOf_listening (p : Pull) : rxPullOf .listening p = p := rfl

end Sys2Proof.Machine
end

