-- ==== Sys2Proof/Laws/Decode.lean ====
section
/-!
SUPPORT. The fields of an encoded word, and that a decoded command is well formed.
-/

namespace Sys2Proof

/-- Every command is well formed: the operand's type carries the range 0..255. -/
theorem Instr.wellFormed_all (i : Instr) : i.wellFormed = true := by
  cases i with
  | setSt s => have := s.isLt; simp [Instr.wellFormed]; omega
  | wChar b => have := b.isLt; simp [Instr.wellFormed]; omega
  | advH n => have := n.isLt; simp [Instr.wellFormed]; omega
  | _ => rfl

@[simp] theorem opField_commandWord (op : BitVec 4) (arg : Byte) : opField (commandWord op arg) = op := by
  apply BitVec.eq_of_getLsbD_eq
  intro i hi
  simp only [opField, commandWord, BitVec.getLsbD_extractLsb', BitVec.getLsbD_append]
  simp [hi, show ¬12 + i < 12 by omega]

@[simp] theorem rsvField_commandWord (op : BitVec 4) (arg : Byte) : rsvField (commandWord op arg) = 0#4 := by
  apply BitVec.eq_of_getLsbD_eq
  intro i hi
  simp only [rsvField, commandWord, BitVec.getLsbD_extractLsb', BitVec.getLsbD_append]
  simp [show 8 + i < 12 by omega]

@[simp] theorem argField_commandWord (op : BitVec 4) (arg : Byte) : argField (commandWord op arg) = arg := by
  apply BitVec.eq_of_getLsbD_eq
  intro i hi
  simp only [argField, commandWord, BitVec.getLsbD_extractLsb', BitVec.getLsbD_append]
  simp [hi, show i < 12 by omega]

/-- A word is the encoding of its fields when its reserved field is zero. -/
theorem commandWord_fields (w : Word) (h : rsvField w = 0#4) : commandWord (opField w) (argField w) = w := by
  have key : commandWord (opField w) (argField w) = opField w ++ (rsvField w ++ argField w) := by rw [h]; rfl
  rw [key]
  apply BitVec.eq_of_getLsbD_eq
  intro i hi
  simp only [opField, rsvField, argField, BitVec.getLsbD_append, BitVec.getLsbD_extractLsb']
  by_cases h1 : i < 8
  · simp [h1, show i < 12 by omega]
  · by_cases h2 : i < 12
    · simp [h1, h2, show i - 8 < 4 by omega, show 8 + (i - 8) = i by omega]
    · simp [h2, show i - 12 < 4 by omega, show 12 + (i - 12) = i by omega]

end Sys2Proof
end

