-- ==== Sys2Proof/Laws/PerInstr.lean ====
section
/-!
SUPPORT. The family of per-command statements: the reserved field of a command's word is zero and its opcode is not the reserved one
(30_encoding.md R100, R104). One lemma per constructor.
-/

namespace Sys2Proof.Laws.LegalFields

open Sys2Proof

/-- The word of `i` has `rsv = 0b0000` and `op ≠ 0x0`. -/
def Statement (i : Instr) : Prop := rsvField (encode i) = 0#4 ∧ opField (encode i) ≠ 0#4

theorem ofCommandWord (op : BitVec 4) (arg : Byte) (h : op ≠ 0#4) :
    rsvField (commandWord op arg) = 0#4 ∧ opField (commandWord op arg) ≠ 0#4 := by simp [h]

theorem beginRx : Statement .beginRx := ofCommandWord _ _ (by decide)
theorem endRx : Statement .endRx := ofCommandWord _ _ (by decide)
theorem hold : Statement .hold := ofCommandWord _ _ (by decide)
theorem setSt (s : Byte) : Statement (.setSt s) := ofCommandWord _ _ (by decide)
theorem wake : Statement .wake := ofCommandWord _ _ (by decide)
theorem wChar (b : Byte) : Statement (.wChar b) := ofCommandWord _ _ (by decide)
theorem avail : Statement .avail := ofCommandWord _ _ (by decide)
theorem peek : Statement .peek := ofCommandWord _ _ (by decide)
theorem read : Statement .read := ofCommandWord _ _ (by decide)
theorem endLf : Statement .endLf := ofCommandWord _ _ (by decide)
theorem endCr : Statement .endCr := ofCommandWord _ _ (by decide)
theorem flush : Statement .flush := ofCommandWord _ _ (by decide)
theorem advH (n : Byte) : Statement (.advH n) := ofCommandWord _ _ (by decide)
theorem hasOvf : Statement .hasOvf := ofCommandWord _ _ (by decide)
theorem hasPe : Statement .hasPe := ofCommandWord _ _ (by decide)

end Sys2Proof.Laws.LegalFields
end

