-- ==== Sys2Proof/Laws/Storage.lean ====
section
/-!
SUPPORT. The laws of the storage: a read after a write, and that every storage operation keeps the canonical form.
-/

namespace Sys2Proof.Machine

@[simp] theorem slotAt_nil (i : Nat) : slotAt [] i = none := rfl

/-- A read after a write to the same slot gives the value written. -/
theorem slotAt_slotPut_same (b : Storage) (i : Nat) (v : Slot) : slotAt (slotPut b i v) i = some v := by
  induction b with
  | nil => simp [slotPut, slotAt]
  | cons x rest ih =>
    obtain ⟨j, w⟩ := x
    unfold slotPut
    split
    · simp [slotAt]
    · split
      · simp [slotAt]
      · next h => simp [slotAt, h, ih]

/-- A write leaves every other slot alone. -/
theorem slotAt_slotPut_other (b : Storage) (i a : Nat) (v : Slot) (h : a ≠ i) :
    slotAt (slotPut b i v) a = slotAt b a := by
  induction b with
  | nil => simp [slotPut, slotAt, h]
  | cons x rest ih =>
    obtain ⟨j, w⟩ := x
    unfold slotPut
    split
    · simp [slotAt, h]
    · split
      · next hij => subst hij; simp [slotAt, h]
      · simp [slotAt, ih]

theorem mem_slotPut {b : Storage} {i : Nat} {v : Slot} {x : Nat × Slot} (h : x ∈ slotPut b i v) :
    x = (i, v) ∨ x ∈ b := by
  induction b with
  | nil => simpa [slotPut] using h
  | cons y rest ih =>
    obtain ⟨j, w⟩ := y
    unfold slotPut at h
    split at h
    · simpa using h
    · split at h
      · rcases List.mem_cons.1 h with h | h
        · exact .inl h
        · exact .inr (List.mem_cons_of_mem _ h)
      · rcases List.mem_cons.1 h with h | h
        · exact .inr (by simp [h])
        · exact (ih h).imp id (List.mem_cons_of_mem _)

/-- A write at an index below `n` keeps the canonical form. -/
theorem slotPut_wf {n : Nat} {b : Storage} {i : Nat} {v : Slot} (hb : b.wf n) (hi : i < n) :
    Storage.wf n (slotPut b i v) := by
  refine ⟨?_, fun x hx => ?_⟩
  · induction b with
    | nil => simp [slotPut]
    | cons y rest ih =>
      obtain ⟨j, w⟩ := y
      obtain ⟨hp, hn⟩ := hb
      rw [List.pairwise_cons] at hp
      have ih' := ih ⟨hp.2, fun x hx => hn x (List.mem_cons_of_mem _ hx)⟩
      unfold slotPut
      split
      · next hlt =>
        refine List.pairwise_cons.2 ⟨fun x hx => ?_, List.pairwise_cons.2 hp⟩
        rcases List.mem_cons.1 hx with rfl | hx
        · exact hlt
        · exact lt_trans hlt (hp.1 x hx)
      · split
        · next hij =>
          subst hij
          exact List.pairwise_cons.2 hp
        · next h1 h2 =>
          refine List.pairwise_cons.2 ⟨fun x hx => ?_, ih'⟩
          rcases mem_slotPut hx with rfl | hx
          · simp; omega
          · exact hp.1 x hx
  · rcases mem_slotPut hx with rfl | hx
    · exact hi
    · exact hb.2 x hx

/-- The empty storage is in canonical form. -/
theorem storage_nil_wf (n : Nat) : Storage.wf n [] := ⟨.nil, by simp⟩

/-- The reset state's storage is in canonical form. -/
theorem reset_storage_wf : Storage.wf State.reset.cfg.n State.reset.buf := by decide

end Sys2Proof.Machine
end

