-- ==== Sys2Proof/Laws/Ops.lean ====
section
/-!
SUPPORT. One lemma per shared operation, saying once everything it can do.
-/

namespace Sys2Proof.Machine

@[simp] theorem withValue_ok {α : Type} (v : α) (k : α → Result) : withValue (.ok v) k = k v := rfl

@[simp] theorem withValue_error {α : Type} (f : Fault) (k : α → Result) : withValue (.error f) k = .fault f := rfl

/-- A continued operation answers a next state only through its value. -/
theorem withValue_next {α : Type} {r : Except Fault α} {k : α → Result} {t : State}
    (h : withValue r k = .next t) : ∃ v, r = .ok v ∧ k v = .next t := by
  cases r with
  | ok v => exact ⟨v, rfl, h⟩
  | error f => cases h

/-- `BufRead` gives a value exactly for a written slot below `N`. -/
theorem bufRead_ok_iff {s : State} {i : Nat} {v : Slot} :
    bufRead s i = .ok v ↔ i < s.cfg.n ∧ slotAt s.buf i = some v := by
  unfold bufRead
  split
  · next h => simp; omega
  · next h =>
    split
    · next h' => simp [h']
    · next w h' => simp [h']; omega

/-- `BufRead` faults exactly beyond `N` and on an unwritten slot. -/
theorem bufRead_error_iff {s : State} {i : Nat} {f : Fault} :
    bufRead s i = .error f ↔
      (s.cfg.n ≤ i ∧ f = .indexOutOfRange i) ∨ (i < s.cfg.n ∧ slotAt s.buf i = none ∧ f = .uninitSlotRead i) := by
  unfold bufRead
  split
  · next h => simp [h, Nat.not_lt.2 h, eq_comm]
  · next h =>
    have h' : i < s.cfg.n := Nat.lt_of_not_le h
    split
    · next h2 => simp [h, h', h2, eq_comm]
    · next w h2 => simp [h, h2]

/-- `Count()` gives the stored number exactly when `HEAD` is below `N`. -/
theorem count_ok_iff {s : State} {n : Nat} : count s = .ok n ↔ s.head < s.cfg.n ∧ n = s.stored := by
  unfold count State.stored
  split
  · next h => simp; omega
  · next h => simp [Nat.lt_of_not_le h, eq_comm]

theorem count_error_iff {s : State} {f : Fault} :
    count s = .error f ↔ s.cfg.n ≤ s.head ∧ f = .indexOutOfRange s.head := by
  unfold count
  split
  · next h => simp [h, eq_comm]
  · next h => simp [h]

/-- `Enqueue` answers a next state by dropping the byte on a full buffer or by storing it. -/
theorem enqueue_cases {s t : State} {v : Slot} (h : enqueue s v = .next t) :
    s.head < s.cfg.n ∧
      ((advanceIndex s s.tail 1 = s.head ∧ t = s.overflow) ∨
        (advanceIndex s s.tail 1 ≠ s.head ∧ s.tail < s.cfg.n ∧ t = s.push v)) := by
  unfold enqueue at h
  split at h
  · cases h
  · next h1 =>
    refine ⟨Nat.lt_of_not_le h1, ?_⟩
    split at h
    · next h2 => exact .inl ⟨h2, by cases h; rfl⟩
    · next h2 =>
      split at h
      · cases h
      · next h3 => exact .inr ⟨h2, Nat.lt_of_not_le h3, by cases h; rfl⟩

/-- `Enqueue` never refuses. -/
theorem enqueue_not_refused {s : State} {v : Slot} {x : Refusal} : enqueue s v ≠ .refused x := by
  unfold enqueue
  split
  · simp
  · split
    · simp
    · split <;> simp

/-- `Complete` answers a next state by failing or through `Enqueue`. -/
theorem complete_cases {s t : State} {w : Slot} {p st : Level} (h : complete s w p st = .next t) :
    (t = s.fail ∧ ∀ v, rxOutcome s.cfg.parityMode w p st ≠ .byte v) ∨
      ∃ v, rxOutcome s.cfg.parityMode w p st = .byte v ∧ enqueue s v = .next t := by
  unfold complete at h
  split at h
  · next ho => exact .inl ⟨by cases h; rfl, by simp [ho]⟩
  · next ho => exact .inl ⟨by cases h; rfl, by simp [ho]⟩
  · next v ho => exact .inr ⟨v, ho, h⟩

/-- An outcome that is a byte is the working byte. -/
theorem rxOutcome_byte {m : ParityMode} {w v : Slot} {p st : Level} (h : rxOutcome m w p st = .byte v) :
    v = w ∧ m = .gated ∧ st = .high ∧ parityMatches w p = true := by
  unfold rxOutcome at h
  split at h
  · cases h
  · next hs =>
    cases m with
    | unconditional => cases h
    | gated =>
      simp only at h
      split at h
      · next hp => cases h; exact ⟨rfl, rfl, by cases st <;> simp_all, hp⟩
      · cases h

theorem waveTicks_append (a b : List Segment) : waveTicks (a ++ b) = waveTicks a + waveTicks b := by
  induction a with
  | nil => simp [waveTicks]
  | cons g rest ih => simp [waveTicks, ih, Nat.add_assoc]

/-- A waveform has a level at every tick before its end. -/
theorem waveLevel_isSome_iff (segs : List Segment) (j : Nat) : (waveLevel segs j).isSome ↔ j < waveTicks segs := by
  induction segs generalizing j with
  | nil => simp [waveLevel, waveTicks]
  | cons g rest ih =>
    unfold waveLevel waveTicks
    split
    · simp; omega
    · rw [ih]; omega

/-- Before the end of a waveform the driven level is the waveform's. -/
theorem waveLevel_eq_driven {segs : List Segment} {j : Nat} (l : Level) (h : j < waveTicks segs) :
    waveLevel segs j = some (driven segs j l) := by
  obtain ⟨x, hx⟩ := Option.isSome_iff_exists.1 ((waveLevel_isSome_iff segs j).2 h)
  simp [driven, hx]

@[simp] theorem waveTicks_wakeSegs (c : Cfg) : waveTicks (wakeSegs c) = wakeTicks c := by
  simp [wakeSegs, waveTicks, wakeTicks]

@[simp] theorem waveTicks_frameSegs (c : Cfg) (b : Byte) : waveTicks (frameSegs c b) = frameTicks c := by
  simp [frameSegs, waveTicks, frameTicks, List.range, List.range.loop]
  omega

end Sys2Proof.Machine
end

