-- ==== Sys2Proof/Laws/Exec.lean ====
section
/-!
SUPPORT. What a command's meaning can answer: one inversion lemma per shape of meaning.
-/

namespace Sys2Proof.Machine

@[simp] theorem isEmpty_iff (s : State) : isEmpty s = true ↔ s.head = s.tail := by simp [isEmpty]

@[simp] theorem isFull_iff (s : State) : isFull s = true ↔ advanceIndex s s.tail 1 = s.head := by simp [isFull]

/-- `recentIs` gives a digit exactly when `Count` does and, with enough bytes stored, the slot is written. -/
theorem recentIs_ok_iff {s : State} {back : Nat} {v : Slot} {b : Bool} :
    recentIs s back v = .ok b ↔
      s.head < s.cfg.n ∧
        ((back ≤ s.stored ∧ ∃ w, bufRead s (backIndex s s.tail back) = .ok w ∧ b = (w == v)) ∨
          (s.stored < back ∧ b = false)) := by
  unfold recentIs
  split
  · next f hf =>
    obtain ⟨h, -⟩ := count_error_iff.1 hf
    simp [Nat.not_lt.2 h]
  · next n hn =>
    obtain ⟨h, rfl⟩ := count_ok_iff.1 hn
    split
    · next hb =>
      split
      · next f hf => simp [h, hb, Nat.not_lt.2 hb, hf]
      · next w hw =>
        simp only [Except.ok.injEq, h, hb, Nat.not_lt.2 hb, hw, true_and, false_and, or_false, exists_eq_left']
        exact eq_comm
    · next hb =>
      simp only [Except.ok.injEq, h, hb, Nat.lt_of_not_le hb, true_and, false_and, false_or]
      exact eq_comm

/-- What a command's meaning leaves when it answers a next state: it has written the line state, a diagnostic, a waveform, a result, or the
indices and flags, and has taken the port for some ticks. -/
theorem exec_cases {i : Instr} {s t : State} (h : exec i s = .next t) :
    ∃ d, (t = (s.beginClear.setState .interruptEnabled).occupy d ∧ i = .beginRx) ∨
      (∃ ls, t = (s.setState ls).occupy d ∧
        ((i = .endRx ∧ ls = .disabled) ∨ (i = .hold ∧ ls = .holding) ∨ ∃ c, i = .setSt c ∧ stateOfCode c = some ls)) ∨
      (t = (s.raiseDiag diagBadState).occupy d ∧ ∃ c, i = .setSt c ∧ stateOfCode c = none) ∨
      (t = ((s.setState .transmitting).startWave (wakeSegs s.cfg)).occupy d ∧ d = wakeTicks s.cfg ∧ i = .wake) ∨
      (∃ b, t = (s.startWave (frameSegs s.cfg b)).occupy d ∧ d = frameTicks s.cfg ∧ i = .wChar b) ∨
      (∃ v, t = (s.respond v).occupy d ∧
        (i = .avail ∨ i = .peek ∨ i = .read ∨ i = .endLf ∨ i = .endCr ∨ i = .hasOvf ∨ i = .hasPe)) ∨
      (∃ v, bufRead s s.head = .ok v ∧ s.head ≠ s.tail ∧ t = (s.pop.respond (byteResult v)).occupy d ∧ i = .read) ∨
      (t = s.emptyBuffer.occupy d ∧ i = .flush) ∨
      (∃ n, t = (s.advanceHead (argCount n)).occupy d ∧ i = .advH n) := by
  cases i <;> simp only [exec] at h
  case beginRx => cases h; exact ⟨_, .inl ⟨rfl, rfl⟩⟩
  case endRx => cases h; exact ⟨_, .inr (.inl ⟨_, rfl, by simp⟩)⟩
  case hold => cases h; exact ⟨_, .inr (.inl ⟨_, rfl, by simp⟩)⟩
  case setSt c =>
    unfold execSetSt at h
    split at h <;> cases h
    · next hc => exact ⟨_, .inr (.inl ⟨_, rfl, by simp [hc]⟩)⟩
    · next ls _ hc => exact ⟨_, .inr (.inl ⟨_, rfl, by simp [hc]⟩)⟩
    · next hc => exact ⟨_, .inr (.inr (.inl ⟨rfl, c, rfl, hc⟩))⟩
  case wake => cases h; exact ⟨_, .inr (.inr (.inr (.inl ⟨rfl, rfl, rfl⟩)))⟩
  case wChar b => cases h; exact ⟨_, .inr (.inr (.inr (.inr (.inl ⟨b, rfl, rfl, rfl⟩))))⟩
  case avail =>
    unfold execAvail at h
    split at h
    · cases h; exact ⟨_, .inr (.inr (.inr (.inr (.inr (.inl ⟨_, rfl, by simp⟩)))))⟩
    · obtain ⟨n, -, hn⟩ := withValue_next h
      cases hn; exact ⟨_, .inr (.inr (.inr (.inr (.inr (.inl ⟨_, rfl, by simp⟩)))))⟩
  case peek =>
    unfold execPeek at h
    split at h
    · cases h; exact ⟨_, .inr (.inr (.inr (.inr (.inr (.inl ⟨_, rfl, by simp⟩)))))⟩
    · obtain ⟨n, -, hn⟩ := withValue_next h
      cases hn; exact ⟨_, .inr (.inr (.inr (.inr (.inr (.inl ⟨_, rfl, by simp⟩)))))⟩
  case read =>
    unfold execRead at h
    split at h
    · cases h; exact ⟨_, .inr (.inr (.inr (.inr (.inr (.inl ⟨_, rfl, by simp⟩)))))⟩
    · next he =>
      obtain ⟨v, hv, hn⟩ := withValue_next h
      cases hn
      exact ⟨_, .inr (.inr (.inr (.inr (.inr (.inr (.inl ⟨v, hv, fun hh => he ((isEmpty_iff s).2 hh), rfl, rfl⟩))))))⟩
  case endLf =>
    obtain ⟨b, -, hn⟩ := withValue_next h
    cases hn; exact ⟨_, .inr (.inr (.inr (.inr (.inr (.inl ⟨_, rfl, by simp⟩)))))⟩
  case endCr =>
    obtain ⟨b, -, hn⟩ := withValue_next h
    cases hn; exact ⟨_, .inr (.inr (.inr (.inr (.inr (.inl ⟨_, rfl, by simp⟩)))))⟩
  case flush => cases h; exact ⟨_, .inr (.inr (.inr (.inr (.inr (.inr (.inr (.inl ⟨rfl, rfl⟩)))))))⟩
  case advH n => cases h; exact ⟨_, .inr (.inr (.inr (.inr (.inr (.inr (.inr (.inr ⟨n, rfl, rfl⟩)))))))⟩
  case hasOvf => cases h; exact ⟨_, .inr (.inr (.inr (.inr (.inr (.inl ⟨_, rfl, by simp⟩)))))⟩
  case hasPe => cases h; exact ⟨_, .inr (.inr (.inr (.inr (.inr (.inl ⟨_, rfl, by simp⟩)))))⟩

/-- No command changes the configuration. -/
theorem exec_cfg {i : Instr} {s t : State} (h : exec i s = .next t) : t.cfg = s.cfg := by
  obtain ⟨d, h⟩ := exec_cases h
  rcases h with ⟨rfl, -⟩ | ⟨ls, rfl, -⟩ | ⟨rfl, -⟩ | ⟨rfl, -⟩ | ⟨b, rfl, -⟩ | ⟨v, rfl, -⟩ | ⟨v, -, -, rfl, -⟩ | ⟨rfl, -⟩ |
    ⟨n, rfl, -⟩ <;> rfl

/-- No command's meaning refuses. -/
theorem exec_not_refused (i : Instr) (s : State) (x : Refusal) : exec i s ≠ .refused x := by
  cases i <;> simp only [exec]
  case beginRx => simp [execBegin]
  case endRx => simp [execEnd]
  case hold => simp [execHold]
  case setSt c => unfold execSetSt; split <;> simp
  case wake => simp [execWake]
  case wChar b => simp [execWChar]
  case avail => unfold execAvail; split; · simp
                cases count s <;> simp
  case peek => unfold execPeek; split; · simp
               cases bufRead s s.head <;> simp
  case read => unfold execRead; split; · simp
               cases bufRead s s.head <;> simp
  case endLf => unfold execEndLf; cases recentIs s 1 lineFeed <;> simp
  case endCr => unfold execEndCr; cases recentIs s 2 carriageReturn <;> simp
  case flush => simp [execFlush]
  case advH n => simp [execAdvH]
  case hasOvf => simp [execHasOvf]
  case hasPe => simp [execHasPe]

end Sys2Proof.Machine
end

