-- ==== Sys2Proof/Laws/Receive.lean ====
section
/-!
SUPPORT. What the decoder's act can do.
-/

namespace Sys2Proof.Machine

/-- The decoder in `Idle` keeps the state, consumes an edge, or enters `Busy`. -/
theorem decoderIdle_cases (rx : Level) (s : State) :
    decoderIdle rx s = s ∨ decoderIdle rx s = s.refuseEdge ∨
      (decoderIdle rx s = s.startDecode ∧ s.armed = true ∧ s.perr = false) := by
  unfold decoderIdle
  split
  · exact .inr (.inl rfl)
  · next ha =>
    split
    · exact .inl rfl
    · split
      · exact .inr (.inl rfl)
      · next hp => exact .inr (.inr ⟨rfl, by simpa using ha, by simpa using hp⟩)

theorem endingDecode_next {r : Result} {t : State} (h : endingDecode r = .next t) :
    ∃ u, r = .next u ∧ t = u.endDecode := by
  cases r with
  | next u => exact ⟨u, rfl, by cases h; rfl⟩
  | fault k => cases h
  | refused x => cases h

/-- The decoder in `Busy`: a spurious edge, a framing error, an outcome at the last offset, or the next offset. -/
theorem decoderOffset_cases {rx : Level} {c : Nat} {w : Slot} {p st : Level} {s t : State}
    (h : decoderOffset rx c w p st s = .next t) :
    (t = s.endDecode ∧ c = instResample s.cfg ∧ rx = .high) ∨
      (t = s.fail.endDecode ∧ c = instStop s.cfg ∧ rx = .low) ∨
      ∃ st', st' = (if c = instStop s.cfg then rx else st) ∧ (c = instStop s.cfg → rx = .high) ∧
        ((c = instDone s.cfg ∧ ∃ u, complete s (sampleData s.cfg c rx w) (sampleParity s.cfg c rx p) st' = .next u ∧
            t = u.endDecode) ∨
          (c ≠ instDone s.cfg ∧ t = s.decoding c (sampleData s.cfg c rx w) (sampleParity s.cfg c rx p) st')) := by
  have fin : ∀ w p st, finishOffset c w p st s = .next t →
      (c = instDone s.cfg ∧ ∃ u, complete s w p st = .next u ∧ t = u.endDecode) ∨
        (c ≠ instDone s.cfg ∧ t = s.decoding c w p st) := by
    intro w p st h
    unfold finishOffset at h
    split at h
    · next hc => exact .inl ⟨hc, endingDecode_next h⟩
    · next hc => exact .inr ⟨hc, by cases h; rfl⟩
  unfold decoderOffset at h
  split at h
  · next hr => cases h; exact .inl ⟨rfl, hr⟩
  · split at h
    · next hs =>
      split at h
      · next hrx => cases h; exact .inr (.inl ⟨rfl, hs, hrx⟩)
      · next hrx =>
        have hh : rx = .high := by cases rx <;> simp_all
        exact .inr (.inr ⟨rx, by simp [hs], fun _ => hh, fin _ _ _ h⟩)
    · next hs => exact .inr (.inr ⟨st, by simp [hs], fun hc => absurd hc hs, fin _ _ _ h⟩)

/-- Everything the decoder's act can leave: the state as it was, a consumed edge, a decode entered; and from `Busy` (with a falling edge latched
where `EDGE_LATCH` says so) a decode ended with nothing, ended by a failure, ended by `Enqueue`, or gone on to the next offset. -/
theorem decoderAct_cases {rx : Level} {s t : State} (h : decoderAct rx s = .next t) :
    (s.dseq = .idle ∧
      (t = s ∨ t = s.refuseEdge ∨ (t = s.startDecode ∧ s.armed = true ∧ s.perr = false))) ∨
      ∃ c w p st, s.dseq = .busy c w p st ∧
        (t = (s.latchEdge rx).endDecode ∨ t = (s.latchEdge rx).fail.endDecode ∨
          (∃ v u, enqueue (s.latchEdge rx) v = .next u ∧ t = u.endDecode) ∨
          ∃ w' p' st', t = (s.latchEdge rx).decoding (c + 1) w' p' st' ∧ c + 1 ≠ instDone s.cfg ∧
            st' = (if c + 1 = instStop s.cfg then rx else st) ∧ (c + 1 = instStop s.cfg → rx = .high)) := by
  unfold decoderAct at h
  split at h
  · next hd => cases h; exact .inl ⟨hd, decoderIdle_cases rx s⟩
  · next c w p st hd =>
    refine .inr ⟨c, w, p, st, hd, ?_⟩
    rcases decoderOffset_cases h with ⟨rfl, -⟩ | ⟨rfl, -⟩ | ⟨st', hst, hrx, ⟨-, u, hu, rfl⟩ | ⟨hc, rfl⟩⟩
    · exact .inl rfl
    · exact .inr (.inl rfl)
    · rcases complete_cases hu with ⟨rfl, -⟩ | ⟨v, -, hv⟩
      · exact .inr (.inl rfl)
      · exact .inr (.inr (.inl ⟨v, u, hv, rfl⟩))
    · exact .inr (.inr (.inr ⟨_, _, st', rfl, hc, hst, hrx⟩))

/-- No act of the decoder changes the configuration. -/
theorem decoderAct_cfg {rx : Level} {s t : State} (h : decoderAct rx s = .next t) : t.cfg = s.cfg := by
  rcases decoderAct_cases h with ⟨-, rfl | rfl | ⟨rfl, -⟩⟩ | ⟨c, w, p, st, -, rfl | rfl | ⟨v, u, hu, rfl⟩ | ⟨w', p', st', rfl, -⟩⟩
  · rfl
  · rfl
  · rfl
  · rfl
  · rfl
  · obtain ⟨-, ⟨-, rfl⟩ | ⟨-, -, rfl⟩⟩ := enqueue_cases hu <;> rfl
  · rfl

/-- The decoder's act never refuses. -/
theorem decoderAct_not_refused (rx : Level) (s : State) (x : Refusal) : decoderAct rx s ≠ .refused x := by
  have hc : ∀ (u : State) w p st, complete u w p st ≠ .refused x := by
    intro u w p st
    unfold complete
    split
    · simp
    · simp
    · exact enqueue_not_refused
  have hf : ∀ (u : State) c w p st, finishOffset c w p st u ≠ .refused x := by
    intro u c w p st
    unfold finishOffset
    split
    · have := hc u w p st
      cases h : complete u w p st <;> simp_all [endingDecode]
    · simp
  unfold decoderAct
  split
  · simp
  · unfold decoderOffset
    split
    · simp
    · split
      · split
        · simp
        · exact hf _ _ _ _ _
      · exact hf _ _ _ _ _

end Sys2Proof.Machine
end

