-- ==== Sys2Proof/Laws/Tick.lean ====
section
/-!
SUPPORT. What a host act, a tick and a step can do, and the package of an invariant: what every act keeps, every step keeps.
-/

namespace Sys2Proof.Machine

/-- The host's act: a busy tick, a performed command, an illegal word, or nothing presented. -/
theorem hostAct_cases {io : TickIn} {s t : State} (h : hostAct io s = .next t) :
    (0 < s.hrem ∧ t = s.clearPulses.continueCommand) ∨
      (s.hrem = 0 ∧ io.cmdValid = true ∧ ∃ i, decode io.cmdWord = .ok i ∧ exec i s.clearPulses = .next t) ∨
      (s.hrem = 0 ∧ io.cmdValid = true ∧ (∃ r, decode io.cmdWord = .error r) ∧ t = performIllegal s.clearPulses) ∨
      (s.hrem = 0 ∧ io.cmdValid = false ∧ t = s.clearPulses) := by
  unfold hostAct at h
  split at h
  · next hr => cases h; exact .inl ⟨hr, rfl⟩
  · next hr =>
    have h0 : s.hrem = 0 := by omega
    split at h
    · next hv =>
      unfold performWord at h
      split at h
      · next i hi => exact .inr (.inl ⟨h0, hv, i, hi, h⟩)
      · next r hr => cases h; exact .inr (.inr (.inl ⟨h0, hv, ⟨r, hr⟩, rfl⟩))
    · next hv => cases h; exact .inr (.inr (.inr ⟨h0, by simpa using hv, rfl⟩))

/-- The host's act never refuses. -/
theorem hostAct_not_refused (io : TickIn) (s : State) (x : Refusal) : hostAct io s ≠ .refused x := by
  unfold hostAct performWord
  split
  · simp
  · split
    · split
      · exact exec_not_refused _ _ _
      · simp
    · simp

/-- Two acts: the first faults, the second faults in the state the first left, or both are done. -/
theorem bothActs_cases {a b : State → Result} {s t : State} (h : bothActs a b s = .next t) :
    (∃ f, a s = .fault f ∧ t = s.raiseFault f) ∨
      ∃ u, a s = .next u ∧ ((∃ f, b u = .fault f ∧ t = u.raiseFault f) ∨ b u = .next t) := by
  unfold bothActs at h
  cases ha : a s with
  | fault f => rw [ha] at h; cases h; exact .inl ⟨f, rfl, rfl⟩
  | refused x => rw [ha] at h; cases h
  | next u =>
    rw [ha] at h
    simp only [thenAct] at h
    refine .inr ⟨u, rfl, ?_⟩
    cases hb : b u with
    | fault f => rw [hb] at h; cases h; exact .inl ⟨f, rfl, rfl⟩
    | refused x => rw [hb] at h; cases h
    | next v => rw [hb] at h; cases h; exact .inr rfl

/-- Two acts answer a next state when neither refuses. -/
theorem bothActs_total {a b : State → Result} {s : State} (ha : ∀ u x, a u ≠ .refused x) (hb : ∀ u x, b u ≠ .refused x) :
    ∃ t, bothActs a b s = .next t := by
  unfold bothActs
  cases h : a s with
  | fault f => exact ⟨_, rfl⟩
  | refused x => exact absurd h (ha s x)
  | next u =>
    simp only [thenAct]
    cases h' : b u with
    | fault f => exact ⟨_, rfl⟩
    | refused x => exact absurd h' (hb u x)
    | next v => exact ⟨_, rfl⟩

/-- A tick: the reset action, or the agents' acts and the end of the tick. -/
theorem tickWith_cases {io : TickIn} {s t : State} (h : tickWith io s = .next t) :
    (io.rst = true ∧ t = s.resetBlock) ∨
      (io.rst = false ∧ ∃ u, agentsAct io s.beginTick = .next u ∧ t = u.endTick io.rxData) := by
  unfold tickWith at h
  split at h
  · next hr => cases h; exact .inl ⟨hr, rfl⟩
  · next hr =>
    refine .inr ⟨by simpa using hr, ?_⟩
    cases hu : agentsAct io s.beginTick with
    | next u => rw [hu] at h; cases h; exact ⟨u, rfl, rfl⟩
    | fault f => rw [hu] at h; cases h
    | refused x => rw [hu] at h; cases h

/-- A step that answers a next state is a tick of a block with a well-formed configuration and no fault. -/
theorem step_cases {s t : State} (h : step s = .next t) :
    s.cfg.wellFormed = true ∧ s.faultMark = none ∧ tickWith s.currentIn s.advance = .next t := by
  unfold step at h
  split at h
  · cases h
  · next hc =>
    split at h
    · cases h
    · next hf => exact ⟨by simpa using hc, hf, h⟩

/-- The package of an invariant over the parts of a tick: what the model's bookkeeping, the reset action, a fault mark and each agent's act
keep, a step keeps. -/
theorem step_keeps {P : State → Prop} {s t : State} (h : step s = .next t) (hs : P s)
    (advance : ∀ u, P u → P u.advance) (beginTick : ∀ u, P u → P u.beginTick) (endTick : ∀ u rx, P u → P (u.endTick rx))
    (reset : ∀ u, P u → P u.resetBlock) (fault : ∀ u f, P u → P (u.raiseFault f))
    (host : ∀ io u v, P u → hostAct io u = .next v → P v) (decoder : ∀ rx u v, P u → decoderAct rx u = .next v → P v) :
    P t := by
  have both : ∀ (a b : State → Result) (u v : State), P u → (∀ x y, P x → a x = .next y → P y) →
      (∀ x y, P x → b x = .next y → P y) → bothActs a b u = .next v → P v := by
    intro a b u v hu ha hb hv
    rcases bothActs_cases hv with ⟨f, -, rfl⟩ | ⟨w, hw, ⟨f, -, rfl⟩ | hw'⟩
    · exact fault _ _ hu
    · exact fault _ _ (ha _ _ hu hw)
    · exact hb _ _ (ha _ _ hu hw) hw'
  rcases tickWith_cases (step_cases h).2.2 with ⟨-, rfl⟩ | ⟨-, u, hu, rfl⟩
  · exact reset _ (advance _ hs)
  · refine endTick _ _ ?_
    unfold agentsAct at hu
    split at hu
    · exact both _ _ _ _ (beginTick _ (advance _ hs)) (host _) (decoder _) hu
    · exact both _ _ _ _ (beginTick _ (advance _ hs)) (decoder _) (host _) hu

/-- The same for the host's act: what a busy tick, an illegal word and every command keep, the host's act keeps. -/
theorem hostAct_keeps {P : State → Prop} {io : TickIn} {s t : State} (h : hostAct io s = .next t) (hs : P s)
    (clear : ∀ u, P u → P u.clearPulses) (busy : ∀ u, 0 < u.hrem → P u → P u.continueCommand)
    (illegal : ∀ u, u.hrem = 0 → P u → P (performIllegal u)) (command : ∀ i u v, u.hrem = 0 → P u → exec i u = .next v → P v) : P t := by
  rcases hostAct_cases h with ⟨hr, rfl⟩ | ⟨h0, -, i, -, hi⟩ | ⟨h0, -, -, rfl⟩ | ⟨-, -, rfl⟩
  · exact busy _ (by simpa using hr) (clear _ hs)
  · exact command i _ _ (by simpa using h0) (clear _ hs) hi
  · exact illegal _ (by simpa using h0) (clear _ hs)
  · exact clear _ hs

/-- No act of the host changes the configuration. -/
theorem hostAct_cfg {io : TickIn} {s t : State} (h : hostAct io s = .next t) : t.cfg = s.cfg :=
  hostAct_keeps (P := fun u => u.cfg = s.cfg) h rfl (fun _ hu => hu) (fun _ _ hu => hu) (fun _ _ hu => hu)
    (fun _ _ _ _ hu hv => (exec_cfg hv).trans hu)

/-- The package of an invariant that may use the well-formed configuration: `step_keeps` with the configuration fixed. -/
theorem step_keeps_cfg {P : State → Prop} {s t : State} (h : step s = .next t) (hs : P s)
    (advance : ∀ u, P u → P u.advance) (beginTick : ∀ u, P u → P u.beginTick) (endTick : ∀ u rx, P u → P (u.endTick rx))
    (reset : ∀ u, u.cfg.wellFormed = true → P u → P u.resetBlock) (fault : ∀ u f, P u → P (u.raiseFault f))
    (host : ∀ io u v, u.cfg.wellFormed = true → P u → hostAct io u = .next v → P v)
    (decoder : ∀ rx u v, u.cfg.wellFormed = true → P u → decoderAct rx u = .next v → P v) : P t :=
  (step_keeps (P := fun u => u.cfg.wellFormed = true ∧ P u) h ⟨(step_cases h).1, hs⟩
    (fun u hu => ⟨hu.1, advance u hu.2⟩) (fun u hu => ⟨hu.1, beginTick u hu.2⟩) (fun u rx hu => ⟨hu.1, endTick u rx hu.2⟩)
    (fun u hu => ⟨hu.1, reset u hu.1 hu.2⟩) (fun u f hu => ⟨hu.1, fault u f hu.2⟩)
    (fun io u v hu hv => ⟨(congrArg Cfg.wellFormed (hostAct_cfg hv)).trans hu.1, host io u v hu.1 hu.2 hv⟩)
    (fun rx u v hu hv => ⟨(congrArg Cfg.wellFormed (decoderAct_cfg hv)).trans hu.1, decoder rx u v hu.1 hu.2 hv⟩)).2

/-- No step changes the configuration (70_reset_and_hazards.md R270; log 1). -/
theorem step_cfg {s t : State} (h : step s = .next t) : t.cfg = s.cfg :=
  step_keeps (P := fun u => u.cfg = s.cfg) h rfl (fun _ hu => hu) (fun _ hu => hu) (fun _ _ hu => hu) (fun _ hu => hu)
    (fun _ _ hu => hu) (fun _ _ _ hu hv => (hostAct_cfg hv).trans hu) (fun _ _ _ hu hv => (decoderAct_cfg hv).trans hu)

end Sys2Proof.Machine
end

