-- ==== Sys2Proof/Certificates/Slice0/Obligations.lean ====
section
/-!
DEFINITION. The statements for the provers, each with the rule of spec/ it formalises. A statement that writes a whole next state as
`{ s with … }` is also that command's frame: every field it does not name is unchanged.
-/

open Sys2Proof Sys2Proof.Machine

/-! ### Encoding (30_encoding.md) -/

/-- Words written out from the opcode map (R102) and the vectors of 95_test_vectors.md V-ENC decode to the commands they stand for, or are
illegal for the reason R104 gives. -/
def Obligations.SpecWordsDecode : Prop :=
  decode 0x1000#16 = .ok .beginRx ∧ decode 0x4004#16 = .ok (.setSt 4#8) ∧ decode 0x40F4#16 = .ok (.setSt 0xF4#8) ∧
    decode 0x6030#16 = .ok (.wChar 0x30#8) ∧ decode 0x9000#16 = .ok .read ∧ decode 0xD0FF#16 = .ok (.advH 255#8) ∧
    decode 0xF000#16 = .ok .hasPe ∧
    decode 0x0FFF#16 = .error .reservedOpcode ∧ decode 0x4104#16 = .error .reservedBits ∧
    decode 0x7001#16 = .error .strayArgument

/-- A word decodes to a command exactly when it is that command's encoding: no operand bit is dropped, and no second word names a command
(R102, R104). -/
def Obligations.DecodeInvertsEncode : Prop :=
  ∀ (w : Word) (i : Instr), decode w = .ok i ↔ w = encode i

/-- R104: `Decode` rejects the words with `op = 0`, those with another opcode and `rsv ≠ 0`, and those with a legal opcode that takes no
argument, `rsv = 0` and `arg ≠ 0`, each class for its own reason and no other word; every other word is the encoding of the command it decodes
to. Performing `Illegal` raises `Diag(IllegalCmd)`, changes no other state and occupies one tick. -/
def Obligations.IllegalWords : Prop :=
  (∀ w : Word,
    (decode w = .error .reservedOpcode ↔ w.extractLsb' 12 4 = 0x0#4) ∧
      (decode w = .error .reservedBits ↔ w.extractLsb' 12 4 ≠ 0x0#4 ∧ w.extractLsb' 8 4 ≠ 0b0000#4) ∧
      (decode w = .error .strayArgument ↔
        w.extractLsb' 12 4 ∉ [0x0#4, 0x4#4, 0x6#4, 0xD#4] ∧ w.extractLsb' 8 4 = 0b0000#4 ∧ w.extractLsb' 0 8 ≠ 0x00#8) ∧
      ((∃ i, decode w = .ok i ∧ w = encode i) ↔
        ¬(w.extractLsb' 12 4 = 0x0#4 ∨ w.extractLsb' 8 4 ≠ 0b0000#4 ∨
          (w.extractLsb' 12 4 ∉ [0x4#4, 0x6#4, 0xD#4] ∧ w.extractLsb' 0 8 ≠ 0x00#8)))) ∧
    ∀ (w : Word) (s : State), (∃ r, decode w = .error r) →
      performWord w s = .next { s with diagValid := true, diagCode := 2#3, hrem := 0 }

/-- R105: no operand of `SETST`, `WCHAR` or `ADVH` is illegal; `SETST s` with `s` in 5..255 performs the unrecognized-state diagnostic. -/
def Obligations.OperandsAlwaysLegal : Prop :=
  (∀ s : Byte, decode (0x40#8 ++ s) = .ok (.setSt s)) ∧ (∀ b : Byte, decode (0x60#8 ++ b) = .ok (.wChar b)) ∧
    (∀ n : Byte, decode (0xD0#8 ++ n) = .ok (.advH n)) ∧
    (∀ (c : Byte) (s : State), 5 ≤ c.toNat →
      exec (.setSt c) s = .next { s with diagValid := true, diagCode := 1#3, hrem := 0 })

/-! ### The tick (20_memory.md R88; 30_encoding.md R103) -/

/-- R88: a step of a well-formed block without a fault mark, in a tick with `rst = 0`, is the two agents' acts on the state at the tick's start,
in the tick's order σ, whether the port is busy, idle, or given a legal or an illegal word; at the tick's start `cmd_ready` is set and the
pulses of the tick before end, and at its end `RX_PREV` is the tick's rx-data level (10_state.md R57), a faulting tick included. In a tick
that presents a legal word to a free port the host's act is `exec` of the decoded command (R103). That the tick's inputs and order ride in the
state is log 2; what a faulting act leaves is log 4 and log 5. -/
def Obligations.StepRunsAcceptedCommand : Prop :=
  (∀ s : State, s.cfg.wellFormed = true → s.faultMark = none → s.currentIn.rst = false →
    step s =
      endingTick
        (match s.currentIn.order with
          | .hostFirst => bothActs (hostAct s.currentIn) (decoderAct s.currentIn.rxData) s.advance.beginTick
          | .decoderFirst => bothActs (decoderAct s.currentIn.rxData) (hostAct s.currentIn) s.advance.beginTick)
        s.currentIn.rxData) ∧
    (∀ s : State,
      s.advance.beginTick =
        { s with
          cmdReady := decide (s.hrem = 0)
          rspValid := false
          diagValid := false
          diagCode := 0#3
          inputs := s.inputs.tail
          tick := s.tick + 1 }) ∧
    (∀ s t : State, step s = .next t → s.currentIn.rst = false → t.rxPrev = s.currentIn.rxData) ∧
    ∀ (s : State) (i : Instr), s.cfg.wellFormed = true → s.faultMark = none → accepts s.currentIn s i →
      step s =
        endingTick
          (match s.currentIn.order with
            | .hostFirst =>
              bothActs (fun u => exec i u.clearPulses) (decoderAct s.currentIn.rxData) s.advance.beginTick
            | .decoderFirst =>
              bothActs (decoderAct s.currentIn.rxData) (fun u => exec i u.clearPulses) s.advance.beginTick)
          s.currentIn.rxData

/-- R103, `HostAct`: the occupied port counts down and plays the waveform, a free port with no word does nothing, an accepted word is decoded
and performed and then occupies the port for its duration; and `cmd_ready` is 1 exactly in a tick with `HREM = 0` at its start and `rst = 0`. -/
def Obligations.HostActFollowsItsRule : Prop :=
  (∀ (io : TickIn) (s : State),
    (0 < s.hrem → s.wsegs = [] → hostAct io s = .next { s.clearPulses with hrem := s.hrem - 1 }) ∧
      (∀ l, 0 < s.hrem → s.wsegs ≠ [] → waveLevel s.wsegs (s.wpos + 1) = some l →
        hostAct io s = .next
          { s.clearPulses with
            hrem := s.hrem - 1
            wpos := if s.hrem = 1 then 0 else s.wpos + 1
            wsegs := if s.hrem = 1 then [] else s.wsegs
            txData := l }) ∧
      (s.hrem = 0 → io.cmdValid = false → hostAct io s = .next s.clearPulses) ∧
      (∀ i, s.hrem = 0 → io.cmdValid = true → decode io.cmdWord = .ok i →
        hostAct io s = exec i s.clearPulses ∧ ∀ t, hostAct io s = .next t → t.hrem = duration s.cfg i - 1) ∧
      (∀ r, s.hrem = 0 → io.cmdValid = true → decode io.cmdWord = .error r →
        hostAct io s = .next { s.clearPulses with diagValid := true, diagCode := 2#3, hrem := 0 })) ∧
    (∀ s : State, s.clearPulses = { s with rspValid := false, diagValid := false, diagCode := 0#3 }) ∧
    ∀ s t : State, step s = .next t → (t.cmdReady = true ↔ s.hrem = 0 ∧ s.currentIn.rst = false)

/-- R243: after a tick in which nothing faulted, `diag_valid` is 1 exactly when the tick accepted an illegal word (code 2) or `SETST` with a
code above 4 (code 1); in every other tick both ports are 0. -/
def Obligations.DiagnosticPort : Prop :=
  ∀ s t : State, step s = .next t → t.faultMark = none →
    (t.diagCode =
      if s.currentIn.rst = false ∧ s.hrem = 0 ∧ s.currentIn.cmdValid = true then
        match decode s.currentIn.cmdWord with
        | .error _ => 2#3
        | .ok (.setSt c) => if 5 ≤ c.toNat then 1#3 else 0#3
        | .ok _ => 0#3
      else 0#3) ∧
    (t.diagValid = true ↔ t.diagCode ≠ 0#3)

/-- While a command occupies the port and no reset comes, each tick lowers `HREM` by one and accepts nothing, whatever word is presented, and
`tx_data` follows the waveform: `tx_data@(t0 + j) = waveLevel(segs, j)` (10_state.md R55; 41_transmit.md R160; 70_reset_and_hazards.md
R276). -/
def Obligations.BusyPortPlaysTheWaveform : Prop :=
  ∀ (k : Nat) (s t : State), s.WaveInv → k ≤ s.hrem → k ≤ s.inputs.length → (∀ x ∈ s.inputs.take k, x.rst = false) →
    runSteps k s = .next t → t.faultMark = none →
      t.hrem = s.hrem - k ∧ (0 < k → t.cmdReady = false) ∧
        (s.wsegs ≠ [] → waveLevel s.wsegs (s.wpos + k) = some t.txData)

/-- The block never hangs (R288). Step is total: from every state with a well-formed configuration and no fault mark a step answers a next
state, whatever the inputs (R88); a tick that faults is one of these, with the mark set in the state it leaves (log 4). And commands and
decodes are bounded (R286, R287): each tick without a fault lowers `HREM` while a command occupies the port, and ends a decode or takes it to its
next offset, still below `s_done`. -/
def Obligations.StepsNeverHang : Prop :=
  (∀ s : State, s.cfg.wellFormed = true → s.faultMark = none → ∃ t, step s = .next t) ∧
    ∀ s t : State, step s = .next t → t.faultMark = none →
      (0 < s.hrem → t.hrem < s.hrem) ∧
        ∀ c w p st, s.dseq = .busy c w p st → c < instDone s.cfg →
          t.dseq = .idle ∨ ∃ w' p' st', t.dseq = .busy (c + 1) w' p' st' ∧ c + 1 < instDone s.cfg

/-! ### Reset, fault mark and configuration -/

/-- R272: the state after reset. -/
def Obligations.ResetState : Prop :=
  State.reset.lineState = .disabled ∧ State.reset.armed = false ∧ State.reset.txEn = true ∧ State.reset.txData = .low ∧
    State.reset.rxEn = false ∧ State.reset.rxPull = .none ∧ State.reset.head = 0 ∧ State.reset.tail = 0 ∧
    (∀ i, slotAt State.reset.buf i = none) ∧ State.reset.ovf = false ∧ State.reset.perr = false ∧
    State.reset.rsp = 0x0000#16 ∧ State.reset.hrem = 0 ∧ State.reset.dseq = .idle ∧ State.reset.edgePend = false ∧
    State.reset.rxPrev = .low ∧ State.reset.faultMark = none ∧
    (∀ i r, (i, r) ∈ [(Instr.avail, 0x0000#16), (.peek, 0xFFFF#16), (.read, 0xFFFF#16), (.endLf, 0x0000#16),
      (.endCr, 0x0000#16), (.hasOvf, 0x0000#16), (.hasPe, 0x0000#16)] →
        ∃ t, exec i State.reset = .next t ∧ t.rsp = r) ∧
    (∀ rx, ∃ t, decoderAct rx State.reset = .next t ∧ t.dseq = .idle)

/-- R270: a tick with `rst = 1` and no fault runs only the reset action, and the configuration stays. Of the model's own fields `inputs` and
`tick` nothing is said. -/
def Obligations.ResetTick : Prop :=
  ∀ s : State, s.cfg.wellFormed = true → s.faultMark = none → s.currentIn.rst = true →
    ∃ t, step s = .next t ∧ t =
      { cfg := s.cfg
        lineState := .disabled
        armed := false
        txEn := decide (s.cfg.disabledTxEnable = .active)
        rxEn := false
        txData := .low
        rxPull := .none
        buf := []
        head := 0
        tail := 0
        ovf := false
        perr := false
        rsp := 0x0000#16
        hrem := 0
        wsegs := []
        wpos := 0
        dseq := .idle
        rxPrev := .low
        edgePend := false
        faultMark := none
        cmdReady := false
        rspValid := false
        diagValid := false
        diagCode := 0#3
        inputs := t.inputs
        tick := t.tick }

/-- R59: once the fault mark is set, no further step is taken, reset included: the step answers the fault (log 4). -/
def Obligations.FaultIsAbsorbing : Prop :=
  ∀ (s : State) (k : Fault), s.cfg.wellFormed = true → s.faultMark = some k → step s = .fault k

/-- R23: a block is refused exactly when its configuration fails one of the listed checks. That the check stands at the step is log 20. -/
def Obligations.IllFormedConfigurationIsRefused : Prop :=
  (∀ c : Cfg,
    c.wellFormed = true ↔
      2 ≤ c.n ∧ 1 ≤ c.tBreak ∧ 1 ≤ c.tMark ∧ 1 ≤ c.tBitTx ∧ 1 ≤ c.rxSched.rResample ∧ 0 ≤ c.rxSched.tFirst ∧
        1 ≤ c.rxSched.tRxBit ∧ 1 ≤ c.rxSched.tParGap ∧ 1 ≤ c.rxSched.tStopGap ∧
        [c.pins.txEnable, c.pins.txData, c.pins.rxEnable, c.pins.rxData].Nodup) ∧
    (∀ s : State, step s = .refused .configInvalid ↔ s.cfg.wellFormed = false)

/-- Every invariant below holds in the reset state. -/
def Obligations.InvariantsHoldAtReset : Prop :=
  State.reset.cfg.wellFormed = true ∧ State.reset.BufferInv ∧ State.reset.LineInv ∧ State.reset.WaveInv ∧
    State.reset.DecoderInv ∧ State.reset.DiagInv ∧ State.reset.LiveWritten

/-! ### Invariants every step keeps -/

/-- The storage keeps its canonical form (written slots in rising order of index: log 13), `TAIL` stays below `N`, and with wrap so does `HEAD`
(10_state.md R53). -/
def Obligations.StepKeepsBufferInv : Prop :=
  ∀ s t : State, s.BufferInv → step s = .next t → t.BufferInv

/-- The enables stay those of the line state, the bus is armed in InterruptEnabled and not in Disabled, an armed bus has its pull-up set,
and the pull-down is never set (40_line_state.md R142; 10_state.md R42, R46). -/
def Obligations.StepKeepsLineInv : Prop :=
  ∀ s t : State, s.LineInv → step s = .next t → t.LineInv

/-- While a waveform plays, the port is occupied to its last tick and the pin has the waveform's level (41_transmit.md R160). -/
def Obligations.StepKeepsWaveInv : Prop :=
  ∀ s t : State, s.WaveInv → step s = .next t → t.WaveInv

/-- A decode never runs past its last offset, its stop sample is `HIGH` exactly from `s_S` on, and without `EDGE_LATCH` no edge is pending
(42_receive.md R186, R195; 10_state.md R58). -/
def Obligations.StepKeepsDecoderInv : Prop :=
  ∀ s t : State, s.DecoderInv → step s = .next t → t.DecoderInv

/-- Live slots stay written through every step, of either order, that does not accept `ADVH n` with `n` above the count (43_buffer.md
R221). -/
def Obligations.StepKeepsLiveSlotsWritten : Prop :=
  ∀ s t : State, s.BufferInv → s.cfg.advanceHeadWrap = true → s.LiveWritten →
    (∀ n, accepts s.currentIn s (.advH n) → n.toNat ≤ s.stored) → step s = .next t → t.LiveWritten

/-! ### Whole-machine rules -/

/-- What the host's act may write (10_state.md R61; 43_buffer.md R223): no slot and no sequencer of the decoder's; the indices, flags, line
state and result only through the commands the rule names; `TX_DATA` only by a waveform's busy tick, by the start of one (`WAKE`, `WCHAR`), or by
a `SetState` that drives a level (`BEGIN`, `HOLD`, `SETST 1`, `SETST 4`). -/
def Obligations.HostAccessRights : Prop :=
  ∀ (io : TickIn) (s t : State), io.rst = false → hostAct io s = .next t →
    (∀ a, slotAt t.buf a = slotAt s.buf a) ∧ t.dseq = s.dseq ∧ t.edgePend = s.edgePend ∧ t.rxPrev = s.rxPrev ∧
      t.cfg = s.cfg ∧ t.faultMark = s.faultMark ∧ t.inputs = s.inputs ∧ t.tick = s.tick ∧
      (t.tail ≠ s.tail → t.tail = 0 ∧ accepts io s .flush) ∧
      (t.head ≠ s.head → accepts io s .read ∨ accepts io s .flush ∨ ∃ n, accepts io s (.advH n)) ∧
      (t.ovf ≠ s.ovf → t.ovf = false ∧ (accepts io s .read ∨ accepts io s .flush)) ∧
      (t.perr ≠ s.perr → t.perr = false ∧ (accepts io s .flush ∨ accepts io s .beginRx)) ∧
      ((t.lineState ≠ s.lineState ∨ t.armed ≠ s.armed ∨ t.txEn ≠ s.txEn ∨ t.rxEn ≠ s.rxEn) →
        accepts io s .beginRx ∨ accepts io s .endRx ∨ accepts io s .hold ∨ accepts io s .wake ∨
          ∃ c, accepts io s (.setSt c) ∧ c.toNat ≤ 4) ∧
      (t.rxPull ≠ s.rxPull → t.rxPull = .up ∧ (accepts io s .beginRx ∨ accepts io s (.setSt 4#8))) ∧
      (t.txData ≠ s.txData →
        (0 < s.hrem ∧ s.wsegs ≠ []) ∨ accepts io s .wake ∨ (∃ b, accepts io s (.wChar b)) ∨ accepts io s .beginRx ∨
          accepts io s .hold ∨ accepts io s (.setSt 1#8) ∨ accepts io s (.setSt 4#8)) ∧
      (t.rsp ≠ s.rsp →
        ∃ i ∈ [Instr.avail, .peek, .read, .endLf, .endCr, .hasOvf, .hasPe], accepts io s i)

/-- What the decoder's act may write (10_state.md R61): never `HEAD`, `RSP`, `TX_DATA`, `RX_PULL`, the host's sequencer or the ports; a slot
only at `TAIL`; `TAIL` only forward by one; the flags only set; the line state only to Disabled. -/
def Obligations.DecoderAccessRights : Prop :=
  ∀ (rx : Level) (s t : State), decoderAct rx s = .next t →
    t.head = s.head ∧ t.rsp = s.rsp ∧ t.txData = s.txData ∧ t.rxPull = s.rxPull ∧ t.hrem = s.hrem ∧ t.wsegs = s.wsegs ∧
      t.wpos = s.wpos ∧ t.cmdReady = s.cmdReady ∧ t.rspValid = s.rspValid ∧ t.diagValid = s.diagValid ∧
      t.diagCode = s.diagCode ∧ t.cfg = s.cfg ∧ t.faultMark = s.faultMark ∧ t.rxPrev = s.rxPrev ∧
      t.inputs = s.inputs ∧ t.tick = s.tick ∧
      (∀ a, a ≠ s.tail → slotAt t.buf a = slotAt s.buf a) ∧
      (t.tail = s.tail → ∀ a, slotAt t.buf a = slotAt s.buf a) ∧
      (t.tail = s.tail ∨ t.tail = (s.tail + 1) % s.cfg.n) ∧ (s.ovf = true → t.ovf = true) ∧
      (s.perr = true → t.perr = true) ∧
      ((t.lineState ≠ s.lineState ∨ t.armed ≠ s.armed ∨ t.txEn ≠ s.txEn ∨ t.rxEn ≠ s.rxEn) →
        t.lineState = .disabled ∧ t.armed = false ∧ t.perr = true)

/-- `PERR` is cleared by a step only in a reset tick or a tick that accepts `FLUSH` or `BEGIN` (10_state.md R51), and `OVF` only in a reset
tick or a tick that accepts `READ` or `FLUSH` (R50). -/
def Obligations.FlagsAreSticky : Prop :=
  ∀ s t : State, step s = .next t →
    (s.perr = true → t.perr = false →
      s.currentIn.rst = true ∨ accepts s.currentIn s .flush ∨ accepts s.currentIn s .beginRx) ∧
    (s.ovf = true → t.ovf = false →
      s.currentIn.rst = true ∨ accepts s.currentIn s .read ∨ accepts s.currentIn s .flush)

/-- R245: with `PERR` set and the decoder idle, a tick that neither resets nor accepts `FLUSH` or `BEGIN` starts no decode and stores nothing:
reception stays halted, silently. -/
def Obligations.ParityErrorHaltsReception : Prop :=
  ∀ s t : State, step s = .next t → s.perr = true → s.dseq = .idle → s.currentIn.rst = false →
    ¬accepts s.currentIn s .flush → ¬accepts s.currentIn s .beginRx →
      t.perr = true ∧ t.dseq = .idle ∧ t.tail = s.tail ∧ t.buf = s.buf

/-- The two admitted results of a same-tick race. `FLUSH` in the tick in which the decoder would store `v` (20_memory.md R95): host first
leaves `v` as the one byte in slot 0, decoder first loses it. `BEGIN` under `FromDisabled` in the tick of a decoder failure (60_exceptions.md
R252; 70_reset_and_hazards.md R281): host first leaves the bus Disabled with `PERR` set, decoder first leaves it armed with `PERR` clear. -/
def Obligations.SameTickRaces : Prop :=
  (∀ (s : State) (v : Slot), 2 ≤ s.cfg.n → s.head < s.cfg.n → s.tail < s.cfg.n → (s.tail + 1) % s.cfg.n ≠ s.head →
    (∃ t, bothActs (exec .flush) (fun u => enqueue u v) s = .next t ∧ t.head = 0 ∧ t.tail = 1 ∧ slotAt t.buf 0 = some v) ∧
      (∃ t, bothActs (fun u => enqueue u v) (exec .flush) s = .next t ∧ t.head = 0 ∧ t.tail = 0 ∧
        slotAt t.buf s.tail = some v)) ∧
    (∀ s : State, s.cfg.beginClear = .fromDisabled → s.lineState = .interruptEnabled →
      (∃ t, bothActs (exec .beginRx) (fun u => .next u.fail) s = .next t ∧ t.lineState = .disabled ∧ t.perr = true ∧
          t.armed = false) ∧
        (∃ t, bothActs (fun u => .next u.fail) (exec .beginRx) s = .next t ∧ t.lineState = .interruptEnabled ∧
          t.perr = false ∧ t.armed = true))

/-! ### Line State Controller (40_line_state.md) -/

/-- R141: `SetState`. -/
def Obligations.SetStateWrites : Prop :=
  ∀ (s : State) (ls : LineState),
    s.setState ls =
      match ls with
      | .disabled =>
        { s with rxEn := false, txEn := decide (s.cfg.disabledTxEnable = .active), armed := false, lineState := .disabled }
      | .holding => { s with rxEn := false, txEn := true, txData := .low, lineState := .holding }
      | .transmitting => { s with rxEn := false, txEn := true, lineState := .transmitting }
      | .listening => { s with rxEn := true, txEn := false, lineState := .listening }
      | .interruptEnabled =>
        { s with
          rxEn := false, txEn := true, txData := .high, rxPull := .up, armed := true, lineState := .interruptEnabled }

/-- R145, with R146's condition: `BEGIN` completes in every state. -/
def Obligations.BeginCompletes : Prop :=
  encode .beginRx = 0x1000#16 ∧
    ∀ s : State,
      exec .beginRx s = .next
        { s with
          perr := if s.cfg.beginClear = .always ∨ s.lineState = .disabled then false else s.perr
          lineState := .interruptEnabled
          armed := true
          txEn := true
          rxEn := false
          txData := .high
          rxPull := .up
          hrem := max 1 s.cfg.tSettle - 1 }

/-- R147 and R148: `END` and `HOLD` complete in every state. -/
def Obligations.EndAndHoldComplete : Prop :=
  encode .endRx = 0x2000#16 ∧ encode .hold = 0x3000#16 ∧
    (∀ s : State,
      exec .endRx s = .next
        { s with
          lineState := .disabled
          armed := false
          txEn := decide (s.cfg.disabledTxEnable = .active)
          rxEn := false
          hrem := 0 }) ∧
    (∀ s : State,
      exec .hold s = .next { s with lineState := .holding, txEn := true, rxEn := false, txData := .low, hrem := 0 })

/-- R149: `SETST` completes in every state for every operand; 0 is `END`, 1 is `HOLD`, and 4 is `BEGIN` without the clearing of `PERR`. -/
def Obligations.SetStCompletes : Prop :=
  (∀ c : Byte, encode (.setSt c) = 0x40#8 ++ c) ∧
    (∀ (c : Byte) (s : State),
      exec (.setSt c) s = .next
        (match c.toNat with
          | 0 => { s.setState .disabled with hrem := 0 }
          | 1 => { s.setState .holding with hrem := 0 }
          | 2 => { s.setState .transmitting with hrem := 0 }
          | 3 => { s.setState .listening with hrem := 0 }
          | 4 => { s.setState .interruptEnabled with hrem := max 1 s.cfg.tSettle - 1 }
          | _ => { s with diagValid := true, diagCode := 1#3, hrem := 0 })) ∧
    (∀ s : State, exec (.setSt 0#8) s = exec .endRx s ∧ exec (.setSt 1#8) s = exec .hold s) ∧
    (∀ s : State, ∃ t u, exec (.setSt 4#8) s = .next t ∧ exec .beginRx s = .next u ∧ t = { u with perr := s.perr })

/-! ### Transmit Encoder (41_transmit.md) -/

/-- R161: the nibble fold through the table 0x6996 is the parity of the number of ones. -/
def Obligations.ParityFoldIsPopcountParity : Prop :=
  ∀ b : Byte,
    parity8 b = (0x6996#16 >>> (b.extractLsb' 4 4 ^^^ b.extractLsb' 0 4).toNat).getLsbD 0 ∧
      parity8 b = decide (((List.range 8).countP (fun i => b.getLsbD i)) % 2 = 1)

/-- R162: `txByte` in its three modes, that they agree below 0x80, and that only `Mask7` always gives even parity on the wire. -/
def Obligations.TxByteModes : Prop :=
  ∀ b : Byte,
    txByte .fold8Replace b = ((b &&& 0x7F#8) ||| (if parity8 b then 0x80#8 else 0x00#8)) ∧
      txByte .fold8Or b = (b ||| (if parity8 b then 0x80#8 else 0x00#8)) ∧
      txByte .mask7 b = ((b &&& 0x7F#8) ||| (if parity8 (b &&& 0x7F#8) then 0x80#8 else 0x00#8)) ∧
      parity8 (txByte .mask7 b) = false ∧
      (b.toNat < 128 → txByte .fold8Replace b = txByte .mask7 b ∧ txByte .fold8Or b = txByte .mask7 b) ∧
      (128 ≤ b.toNat → parity8 (txByte .fold8Replace b) = true) ∧ txByte .fold8Replace 0x80#8 = 0x80#8

/-- R163: the ten segments of a character frame, each of `T_BIT_TX` ticks; that a 1 drives `LOW` is log 11. -/
def Obligations.FrameLayout : Prop :=
  ∀ (c : Cfg) (b : Byte),
    (frameSegs c b).length = 10 ∧ (∀ g ∈ frameSegs c b, g.ticks = c.tBitTx) ∧ waveTicks (frameSegs c b) = 10 * c.tBitTx ∧
      ((frameSegs c b)[0]?).map (·.level) = some .high ∧
      (∀ i, i < 8 → ((frameSegs c b)[i + 1]?).map (·.level) =
        some (if (txByte c.txBit7Mode b).getLsbD i = true then .low else .high)) ∧
      ((frameSegs c b)[9]?).map (·.level) = some c.txStopLevel

/-- R164: `WAKE` completes in every state of a block that can be built. -/
def Obligations.WakeCompletes : Prop :=
  encode .wake = 0x5000#16 ∧
    ∀ s : State, s.cfg.wellFormed = true →
      exec .wake s = .next
        { s with
          lineState := .transmitting
          txEn := true
          rxEn := false
          wsegs := [⟨.high, s.cfg.tBreak⟩, ⟨.low, s.cfg.tMark⟩]
          wpos := 0
          txData := .high
          hrem := s.cfg.tBreak + s.cfg.tMark - 1 }

/-- R165: `WCHAR` completes in every state of a block that can be built, whatever the line state; its first tick drives the start bit. -/
def Obligations.WCharCompletes : Prop :=
  (∀ b : Byte, encode (.wChar b) = 0x60#8 ++ b) ∧
    ∀ (b : Byte) (s : State), s.cfg.wellFormed = true →
      exec (.wChar b) s = .next
        { s with wsegs := frameSegs s.cfg b, wpos := 0, txData := .high, hrem := 10 * s.cfg.tBitTx - 1 }

/-- R111 and R166: the expansion of `SENDCMD` is `k + 2` words and occupies the port for the wake, ten bit periods per byte, and one tick. -/
def Obligations.SendCmdExpansion : Prop :=
  ∀ (c : Cfg) (text : List Byte),
    sendCmd text = [Instr.wake] ++ text.map Instr.wChar ++ [Instr.setSt 3#8] ∧ (sendCmd text).length = text.length + 2 ∧
      totalTicks c (sendCmd text) = c.tBreak + c.tMark + 10 * c.tBitTx * text.length + 1

/-- R286: every command that completes occupies the port for its duration. -/
def Obligations.CommandsLastTheirDuration : Prop :=
  ∀ (i : Instr) (s t : State), exec i s = .next t → t.hrem = duration s.cfg i - 1

/-! ### Receive Decoder (42_receive.md) -/

/-- R181, R182 and R193, with the idle part of R180: disarmed, the decoder starts nothing and drops a latched edge; armed, it starts on a
falling edge or a latched one, unless `PERR` refuses it, and then the edge is consumed. While `Busy` an edge starts nothing, and is held
exactly with `EDGE_LATCH`. -/
def Obligations.DecoderTrigger : Prop :=
  (∀ (s : State) (rx : Level), s.dseq = .idle →
    decoderAct rx s = .next
      (if s.armed = false then { s with edgePend := false }
        else if (s.rxPrev = .high ∧ rx = .low) ∨ s.edgePend = true then
          if s.perr = true then { s with edgePend := false }
          else { s with dseq := .busy 0 0#7 .low .low, edgePend := false }
        else s)) ∧
    ∀ (s t : State) (rx : Level) (c : Nat) (w : Slot) (p st : Level), s.dseq = .busy c w p st → decoderAct rx s = .next t →
      (t.dseq = .idle ∨ ∃ w' p' st', t.dseq = .busy (c + 1) w' p' st') ∧
        (t.edgePend = true ↔ s.edgePend = true ∨ (s.rxPrev = .high ∧ rx = .low ∧ s.cfg.edgeLatch = true))

/-- R184: at `s_RS` a `HIGH` line ends the decode and writes nothing else; with a `LOW` line the decode goes on. -/
def Obligations.SpuriousEdgeEndsTheDecode : Prop :=
  ∀ (s : State) (c : Nat) (w : Slot) (p st : Level), s.cfg.wellFormed = true → s.dseq = .busy c w p st →
    c + 1 = s.cfg.rxSched.rResample →
      decoderAct .high s = .next { s with dseq := .idle } ∧
        ∃ e, decoderAct .low s = .next { s with dseq := .busy (c + 1) w p st, edgePend := e }

/-- R185: at `s_D(k)` bit `k` of the working byte becomes the level, `HIGH` as 1 (log 11), and every other bit is kept. -/
def Obligations.DataBitSampled : Prop :=
  ∀ (s : State) (rx : Level) (c k : Nat) (w : Slot) (p st : Level), s.cfg.wellFormed = true →
    s.dseq = .busy c w p st → k < 7 → c + 1 = instData s.cfg k →
      ∃ w' e, decoderAct rx s = .next { s with dseq := .busy (c + 1) w' p st, edgePend := e } ∧
        w'.getLsbD k = decide (rx = .high) ∧ ∀ j, j < 7 → j ≠ k → w'.getLsbD j = w.getLsbD j

/-- R189 and R190, `Fail()` and its forced disable: `PERR` is set, the bus is Disabled, and nothing is enqueued; and the framing error of R186:
at `s_S` a `LOW` line fails and ends the decode. -/
def Obligations.FramingErrorFails : Prop :=
  (∀ s : State,
    s.fail =
      { s with
        perr := true
        lineState := .disabled
        armed := false
        rxEn := false
        txEn := decide (s.cfg.disabledTxEnable = .active) }) ∧
  ∀ (s : State) (c : Nat) (w : Slot) (p st : Level), s.dseq = .busy c w p st → c + 1 = instStop s.cfg →
    decoderAct .low s = .next
      { s with
        perr := true
        lineState := .disabled
        armed := false
        rxEn := false
        txEn := decide (s.cfg.disabledTxEnable = .active)
        dseq := .idle
        edgePend := s.edgePend || (decide (s.rxPrev = .high) && s.cfg.edgeLatch) }

/-- R188: the outcome function and what `Complete` runs. That a parity slot reading `HIGH` counts as the digit 1 is log 11. -/
def Obligations.OutcomeFunction : Prop :=
  (∀ (m : ParityMode) (w : Slot) (p : Level), rxOutcome m w p .low = .framingError) ∧
    (∀ (w : Slot) (p : Level), rxOutcome .unconditional w p .high = .parityFault) ∧
    (∀ (w : Slot) (p : Level),
      rxOutcome .gated w p .high = if parity8 (w.setWidth 8) ≠ decide (p = .high) then .parityFault else .byte w) ∧
    (∀ (s : State) (w : Slot) (p st : Level),
      complete s w p st =
        match rxOutcome s.cfg.parityMode w p st with
        | .framingError => .next s.fail
        | .parityFault => .next s.fail
        | .byte v => enqueue s v)

/-- R183: the sampling instants, and their values for CENTRE and DOC. -/
def Obligations.SamplingInstants : Prop :=
  (∀ c : Cfg,
    instResample c = c.rxSched.rResample ∧
      (∀ k, instData c k = c.rxSched.rResample + c.rxSched.tFirst + (k + 1) * c.rxSched.tRxBit) ∧
      instParity c = instData c 6 + c.rxSched.tParGap ∧ instStop c = instData c 6 + c.rxSched.tStopGap ∧
      (c.parityMode = .gated → instDone c = max (instStop c) (instParity c)) ∧
      (c.parityMode = .unconditional → instDone c = instStop c)) ∧
    ((List.range 7).map (instData defaultCfg) = [1208, 2013, 2818, 3623, 4428, 5233, 6038] ∧
      instResample defaultCfg = 1 ∧ instParity defaultCfg = 6843 ∧ instStop defaultCfg = 7648 ∧
      instDone defaultCfg = 7648 ∧ instDone { defaultCfg with parityMode := .unconditional } = 7648) ∧
    (∀ d : Cfg, d = { defaultCfg with rxSched := schedDoc } →
      (List.range 7).map (instData d) = [821, 1621, 2421, 3221, 4021, 4821, 5621] ∧ instResample d = 1 ∧
        instParity d = 6421 ∧ instStop d = 6271 ∧ instDone d = 6421 ∧
        instDone { d with parityMode := .unconditional } = 6271)

/-- R197: CENTRE fits an incoming period of `num / den` ticks (log 17) exactly when it lies in (764.8, 849.78], that is above 7648/10 and up to
7648/9, and DOC fits none. -/
def Obligations.SchedulesFitPeriods : Prop :=
  ∀ num den : Nat, 0 < den →
    (fitsPeriod defaultCfg num den = true ↔ 7648 * den < 10 * num ∧ 9 * num ≤ 7648 * den) ∧
      fitsPeriod { defaultCfg with rxSched := schedDoc } num den = false

/-- R194: a decode in progress reads neither `ARMED` nor `LINE_STATE`: changed while it runs, they change nothing else of the act, and both keep
the changed values, or both are those of the forced disable. -/
def Obligations.DecodeIgnoresTheLineState : Prop :=
  ∀ (s t : State) (rx : Level) (c : Nat) (w : Slot) (p st : Level) (a : Bool) (ls : LineState),
    s.dseq = .busy c w p st → decoderAct rx s = .next t →
      ∃ t', decoderAct rx { s with armed := a, lineState := ls } = .next t' ∧
        t = { t' with armed := t.armed, lineState := t.lineState } ∧
        ((t.lineState = s.lineState ∧ t.armed = s.armed ∧ t'.lineState = ls ∧ t'.armed = a) ∨
          (t.lineState = .disabled ∧ t.armed = false ∧ t'.lineState = .disabled ∧ t'.armed = false))

/-- R180 to R192 as one rule: a decode started by a falling edge on an armed, error-free bus, whose start bit still reads `LOW` at `s_RS`, does
after `s_done + 1` ticks what the outcome function says of the levels at the sampling instants, whatever the line does between them:
a byte goes to `Enqueue` and the bus stays as it was; a framing error or parity fault sets `PERR` and forces Disabled, and the buffer
stays as it was. That a sample reading `HIGH` is the digit 1 is log 11. -/
def Obligations.DecodeFollowsTheSamples : Prop :=
  ∀ (s : State) (line : Nat → Level) (w : Slot), s.cfg.wellFormed = true → s.BufferInv → s.head < s.cfg.n →
    s.dseq = .idle → s.armed = true → s.perr = false → s.rxPrev = .high → line 0 = .low →
    line (instResample s.cfg) = .low → (∀ k, k < 7 → w.getLsbD k = decide (line (instData s.cfg k) = .high)) →
      ∃ t, decodeRun line 0 (decodeTicks s.cfg) s = .next t ∧ t.dseq = .idle ∧ t.head = s.head ∧
        match rxOutcome s.cfg.parityMode w (line (instParity s.cfg)) (line (instStop s.cfg)) with
        | .byte v =>
          v = w ∧ t.perr = false ∧ t.lineState = s.lineState ∧ t.armed = true ∧
            (if (s.tail + 1) % s.cfg.n = s.head then t.ovf = true ∧ t.tail = s.tail ∧ t.buf = s.buf
              else t.ovf = s.ovf ∧ t.tail = (s.tail + 1) % s.cfg.n ∧ slotAt t.buf s.tail = some w ∧
                ∀ a, a ≠ s.tail → slotAt t.buf a = slotAt s.buf a)
        | _ =>
          t.perr = true ∧ t.lineState = .disabled ∧ t.armed = false ∧ t.ovf = s.ovf ∧ t.tail = s.tail ∧ t.buf = s.buf

/-- The transmit encoder and the receive decoder agree: with the tx-data pin of a frame looped back inverted to rx-data, a block whose schedule
fits its own bit period stores the low seven bits of the byte it sends (or drops them with `OVF` on a full buffer) exactly when parity is
`Gated`, the stop level is `LOW` and the byte sent has even parity on the wire, which every byte below 0x80 has; otherwise the decode fails
(41_transmit.md R162, R163; 42_receive.md R188, R196, R197; the level of a binary digit is log 11). -/
def Obligations.LoopbackStoresTheByte : Prop :=
  ∀ (s : State) (b : Byte), s.cfg.wellFormed = true → s.BufferInv → s.head < s.cfg.n → s.dseq = .idle → s.armed = true →
    s.perr = false → s.rxPrev = .high → fitsPeriod s.cfg s.cfg.tBitTx 1 = true →
      (b.toNat < 128 → parity8 (txByte s.cfg.txBit7Mode b) = false) ∧
        ∃ t, decodeRun (loopback s.cfg b) 0 (decodeTicks s.cfg) s = .next t ∧ t.dseq = .idle ∧ t.head = s.head ∧
          if s.cfg.parityMode = .gated ∧ s.cfg.txStopLevel = .low ∧ parity8 (txByte s.cfg.txBit7Mode b) = false then
            t.perr = false ∧ t.lineState = s.lineState ∧ t.armed = true ∧
              (if (s.tail + 1) % s.cfg.n = s.head then t.ovf = true ∧ t.tail = s.tail ∧ t.buf = s.buf
                else t.ovf = s.ovf ∧ t.tail = (s.tail + 1) % s.cfg.n ∧ slotAt t.buf s.tail = some (b.setWidth 7))
          else t.perr = true ∧ t.lineState = .disabled ∧ t.armed = false ∧ t.ovf = s.ovf ∧ t.tail = s.tail ∧ t.buf = s.buf

/-! ### Circular Receive Buffer (43_buffer.md) -/

/-- R210: `Enqueue`. -/
def Obligations.EnqueueEffect : Prop :=
  ∀ (s : State) (v : Slot),
    (s.cfg.n ≤ s.head → enqueue s v = .fault (.indexOutOfRange s.head)) ∧
      (s.head < s.cfg.n → (s.tail + 1) % s.cfg.n = s.head → enqueue s v = .next { s with ovf := true }) ∧
      (s.head < s.cfg.n → (s.tail + 1) % s.cfg.n ≠ s.head → s.tail < s.cfg.n →
        ∃ b, enqueue s v = .next { s with buf := b, tail := (s.tail + 1) % s.cfg.n } ∧ slotAt b s.tail = some v ∧
          ∀ a, a ≠ s.tail → slotAt b a = slotAt s.buf a)

/-- R212: `AVAIL`. It completes for every count; its result is stated for a count that 16 bits hold, and beyond that, which only a buffer of
more than 65536 slots reaches, any value may stand there (log 7). -/
def Obligations.AvailCompletes : Prop :=
  encode .avail = 0x7000#16 ∧
    ∀ s : State,
      (s.ovf = true → exec .avail s = .next { s with rsp := 0xFFFF#16, rspValid := true, hrem := 0 }) ∧
        (s.ovf = false → s.head < s.cfg.n →
          ∃ r : Word, exec .avail s = .next { s with rsp := r, rspValid := true, hrem := 0 } ∧
            ((s.tail + s.cfg.n - s.head) % s.cfg.n < 65536 →
              r = BitVec.ofNat 16 ((s.tail + s.cfg.n - s.head) % s.cfg.n))) ∧
        (s.ovf = false → s.cfg.n ≤ s.head → exec .avail s = .fault (.indexOutOfRange s.head))

/-- R213: `PEEK`. -/
def Obligations.PeekCompletes : Prop :=
  encode .peek = 0x8000#16 ∧
    ∀ s : State,
      (s.head = s.tail → exec .peek s = .next { s with rsp := 0xFFFF#16, rspValid := true, hrem := 0 }) ∧
        (∀ v, s.head ≠ s.tail → s.head < s.cfg.n → slotAt s.buf s.head = some v →
          exec .peek s = .next { s with rsp := v.setWidth 16, rspValid := true, hrem := 0 }) ∧
        (s.head ≠ s.tail → s.head < s.cfg.n → slotAt s.buf s.head = none →
          exec .peek s = .fault (.uninitSlotRead s.head)) ∧
        (s.head ≠ s.tail → s.cfg.n ≤ s.head → exec .peek s = .fault (.indexOutOfRange s.head))

/-- R214: `READ`. -/
def Obligations.ReadCompletes : Prop :=
  encode .read = 0x9000#16 ∧
    ∀ s : State,
      (s.head = s.tail → exec .read s = .next { s with rsp := 0xFFFF#16, rspValid := true, hrem := 0 }) ∧
        (∀ v, s.head ≠ s.tail → s.head < s.cfg.n → slotAt s.buf s.head = some v →
          exec .read s = .next
            { s with
              rsp := v.setWidth 16
              rspValid := true
              head := (s.head + 1) % s.cfg.n
              ovf := false
              hrem := 0 }) ∧
        (s.head ≠ s.tail → s.head < s.cfg.n → slotAt s.buf s.head = none →
          exec .read s = .fault (.uninitSlotRead s.head)) ∧
        (s.head ≠ s.tail → s.cfg.n ≤ s.head → exec .read s = .fault (.indexOutOfRange s.head))

/-- R215: `ENDLF`. The slot before `TAIL` is read only when a byte is stored. -/
def Obligations.EndLfCompletes : Prop :=
  encode .endLf = 0xA000#16 ∧
    ∀ s : State, s.tail < s.cfg.n →
      (s.head < s.cfg.n → s.head = s.tail →
        exec .endLf s = .next { s with rsp := 0x0000#16, rspValid := true, hrem := 0 }) ∧
        (∀ v, s.head < s.cfg.n → s.head ≠ s.tail → slotAt s.buf ((s.tail + s.cfg.n - 1) % s.cfg.n) = some v →
          exec .endLf s = .next
            { s with rsp := if v.toNat = 10 then 0x0001#16 else 0x0000#16, rspValid := true, hrem := 0 }) ∧
        (s.head < s.cfg.n → s.head ≠ s.tail → slotAt s.buf ((s.tail + s.cfg.n - 1) % s.cfg.n) = none →
          exec .endLf s = .fault (.uninitSlotRead ((s.tail + s.cfg.n - 1) % s.cfg.n))) ∧
        (s.cfg.n ≤ s.head → exec .endLf s = .fault (.indexOutOfRange s.head))

/-- R216: `ENDCR`. The second slot before `TAIL` is read only when two bytes are stored. -/
def Obligations.EndCrCompletes : Prop :=
  encode .endCr = 0xB000#16 ∧
    ∀ s : State, s.tail < s.cfg.n →
      (s.head < s.cfg.n → (s.tail + s.cfg.n - s.head) % s.cfg.n < 2 →
        exec .endCr s = .next { s with rsp := 0x0000#16, rspValid := true, hrem := 0 }) ∧
        (∀ v, s.head < s.cfg.n → 2 ≤ (s.tail + s.cfg.n - s.head) % s.cfg.n →
          slotAt s.buf ((s.tail + s.cfg.n - 2) % s.cfg.n) = some v →
          exec .endCr s = .next
            { s with rsp := if v.toNat = 13 then 0x0001#16 else 0x0000#16, rspValid := true, hrem := 0 }) ∧
        (s.head < s.cfg.n → 2 ≤ (s.tail + s.cfg.n - s.head) % s.cfg.n →
          slotAt s.buf ((s.tail + s.cfg.n - 2) % s.cfg.n) = none →
          exec .endCr s = .fault (.uninitSlotRead ((s.tail + s.cfg.n - 2) % s.cfg.n))) ∧
        (s.cfg.n ≤ s.head → exec .endCr s = .fault (.indexOutOfRange s.head))

/-- R217: `ADVH n`, with and without wrap; the advance is not clamped and writes nothing but `HEAD`. -/
def Obligations.AdvHCompletes : Prop :=
  (∀ n : Byte, encode (.advH n) = 0xD0#8 ++ n) ∧
    ∀ (n : Byte) (s : State),
      exec (.advH n) s = .next
        { s with
          head := if s.cfg.advanceHeadWrap = true then (s.head + n.toNat) % s.cfg.n else s.head + n.toNat
          hrem := 0 }

/-- R218: `FLUSH`, and the four queries after it. -/
def Obligations.FlushCompletes : Prop :=
  encode .flush = 0xC000#16 ∧
    ∀ s : State,
      exec .flush s = .next { s with head := 0, tail := 0, ovf := false, perr := false, hrem := 0 } ∧
        (s.cfg.wellFormed = true → ∀ t, exec .flush s = .next t →
          ∀ i r, (i, r) ∈ [(Instr.avail, 0x0000#16), (.peek, 0xFFFF#16), (.hasOvf, 0x0000#16), (.hasPe, 0x0000#16)] →
            ∃ u, exec i t = .next u ∧ u.rsp = r)

/-- R219 and R220: `HASOVF` and `HASPE` answer the flags and clear neither. -/
def Obligations.FlagQueriesComplete : Prop :=
  encode .hasOvf = 0xE000#16 ∧ encode .hasPe = 0xF000#16 ∧
    (∀ s : State,
      exec .hasOvf s = .next
        { s with rsp := if s.ovf = true then 0x0001#16 else 0x0000#16, rspValid := true, hrem := 0 }) ∧
    (∀ s : State,
      exec .hasPe s = .next
        { s with rsp := if s.perr = true then 0x0001#16 else 0x0000#16, rspValid := true, hrem := 0 })

/-- R253: which commands fault, and when. -/
def Obligations.CommandsFaultExactly : Prop :=
  ∀ (i : Instr) (s : State) (k : Fault),
    exec i s = .fault k ↔
      match i with
      | .avail => s.ovf = false ∧ s.cfg.n ≤ s.head ∧ k = .indexOutOfRange s.head
      | .peek | .read =>
        s.head ≠ s.tail ∧
          ((s.cfg.n ≤ s.head ∧ k = .indexOutOfRange s.head) ∨
            (s.head < s.cfg.n ∧ slotAt s.buf s.head = none ∧ k = .uninitSlotRead s.head))
      | .endLf =>
        (s.cfg.n ≤ s.head ∧ k = .indexOutOfRange s.head) ∨
          (s.head < s.cfg.n ∧ 1 ≤ s.stored ∧ slotAt s.buf ((s.tail + s.cfg.n - 1) % s.cfg.n) = none ∧
            k = .uninitSlotRead ((s.tail + s.cfg.n - 1) % s.cfg.n))
      | .endCr =>
        (s.cfg.n ≤ s.head ∧ k = .indexOutOfRange s.head) ∨
          (s.head < s.cfg.n ∧ 2 ≤ s.stored ∧ slotAt s.buf ((s.tail + s.cfg.n - 2) % s.cfg.n) = none ∧
            k = .uninitSlotRead ((s.tail + s.cfg.n - 2) % s.cfg.n))
      | .beginRx | .endRx | .hold | .setSt _ | .wake | .wChar _ | .flush | .advH _ | .hasOvf | .hasPe => False

/-- R221: where every live slot is written, the four commands that read a slot complete. -/
def Obligations.LiveReadsComplete : Prop :=
  ∀ s : State, s.BufferInv → s.head < s.cfg.n → s.LiveWritten →
    ∀ i ∈ [Instr.peek, .read, .endLf, .endCr], ∃ t, exec i s = .next t

/-- R210 and R214 on the buffer's contents as a queue: an `Enqueue` on a buffer that is not full appends the byte, and a `READ` of a buffer
that is not empty answers and removes the oldest. -/
def Obligations.BufferIsAQueue : Prop :=
  ∀ s : State, s.BufferInv → s.head < s.cfg.n →
    (∀ v, s.stored < s.cfg.n - 1 → ∃ t, enqueue s v = .next t ∧ t.contents = s.contents ++ [some v]) ∧
      (∀ v rest, s.contents = some v :: rest →
        ∃ t, exec .read s = .next t ∧ t.rsp = v.setWidth 16 ∧ t.contents = rest)

/-- R221, the FIFO property: from an empty buffer, up to `N − 1` bytes stored and then read come back in order, unchanged, without overflow. -/
def Obligations.FifoOrder : Prop :=
  ∀ (s : State) (vs : List Slot), s.cfg.wellFormed = true → s.BufferInv → s.head = s.tail → s.ovf = false →
    vs.length ≤ s.cfg.n - 1 →
      ∃ t u, enqueueMany vs s = .next t ∧ t.ovf = false ∧
        readMany vs.length t = some (vs.map (fun v => v.setWidth 16), u) ∧ u.head = u.tail ∧ u.ovf = false

/-- R222: on a full buffer an `Enqueue` sets `OVF` and stores nothing; `AVAIL` is −1 until a `READ` returns the oldest byte and clears the flag;
after it `AVAIL` is `N − 2`. -/
def Obligations.OverflowAndRecovery : Prop :=
  ∀ (s : State) (v w : Slot) (rest : List (Option Slot)), s.BufferInv → s.head < s.cfg.n → 2 ≤ s.cfg.n → s.cfg.n ≤ 65536 →
    s.stored = s.cfg.n - 1 → s.contents = some w :: rest →
      ∃ t, enqueue s v = .next t ∧ t.ovf = true ∧ t.contents = s.contents ∧ t.buf = s.buf ∧
        (∃ a, exec .avail t = .next a ∧ a.rsp = 0xFFFF#16) ∧
        ∃ u, exec .read t = .next u ∧ u.rsp = w.setWidth 16 ∧ u.ovf = false ∧ u.contents = rest ∧
          ∃ a, exec .avail u = .next a ∧ a.rsp = BitVec.ofNat 16 (s.cfg.n - 2)

/-! ### Ports (10_state.md R40) -/

/-- The output ports show the registers, and the electrical level on an enable pin is `EN_ACTIVE_LEVEL` when the logical enable is 1 and its
opposite when it is 0 (R40). -/
def Obligations.PortsShowTheRegisters : Prop :=
  ∀ s : State,
    s.portsOut.txEn = s.txEn ∧ s.portsOut.txData = s.txData ∧ s.portsOut.rxEn = s.rxEn ∧ s.portsOut.rspData = s.rsp ∧
      s.portsOut.rxPull = (match s.rxPull with | .none => 0#2 | .up => 1#2 | .down => 2#2) ∧
      (s.txEn = true → s.portsOut.txEnPin = s.cfg.enActiveLevel) ∧
      (s.txEn = false → s.portsOut.txEnPin ≠ s.cfg.enActiveLevel) ∧
      (s.rxEn = true → s.portsOut.rxEnPin = s.cfg.enActiveLevel) ∧
      (s.rxEn = false → s.portsOut.rxEnPin ≠ s.cfg.enActiveLevel)
end

