-- ==== Sys2Proof/Tests/Slice0.lean ====
section
/-!
SUPPORT. Tests against the spec's own words and vectors (each names its source), the smoke tests of well-formedness, and for every
statement with hypotheses a state and operands that meet them.
-/

namespace Sys2Proof.Tests

open Sys2Proof Sys2Proof.Machine

/-! ### Helpers -/

/-- A tick with nothing presented. -/
def idleIn (rx : Level) (o : ActOrder) : TickIn := { rst := false, cmdValid := false, cmdWord := 0#16, rxData := rx, order := o }

/-- A tick that presents a word. -/
def cmdIn (w : Word) (rx : Level) (o : ActOrder) : TickIn := { rst := false, cmdValid := true, cmdWord := w, rxData := rx, order := o }

/-- A tick with `rst = 1` and a word presented. -/
def rstIn (w : Word) : TickIn := { rst := true, cmdValid := true, cmdWord := w, rxData := .high, order := .hostFirst }

/-- The reset state with inputs to come. -/
def withIn (l : List TickIn) (s : State) : State := { s with inputs := l }

/-- A result is a next state that a check accepts. -/
def nextIs (r : Result) (p : State → Bool) : Bool :=
  match r with
  | .next t => p t
  | .fault _ => false
  | .refused _ => false

/-- A result is the given fault. -/
def faultIs (r : Result) (k : Fault) : Bool :=
  match r with
  | .fault f => f == k
  | .next _ => false
  | .refused _ => false

/-- The state after `BEGIN`, decoder idle, rx-data `HIGH`. -/
def listening : State :=
  { State.reset with lineState := .interruptEnabled, armed := true, txData := .high, rxPull := .up, rxPrev := .high }

/-- The same with a decode at offset `c`. -/
def busyAt (c : Nat) : State := { listening with dseq := .busy c 0x55#7 .low .low, rxPrev := .low }

/-- Three bytes 0x30 0x0D 0x0A stored (95_test_vectors.md V-BUF-5). -/
def threeStored : State := { State.reset with buf := [(0, 0x30#7), (1, 0x0D#7), (2, 0x0A#7)], tail := 3 }

/-- A buffer of three slots, full with two bytes. -/
def smallFull : State :=
  { State.reset with cfg := { defaultCfg with n := 3 }, buf := [(0, 0x20#7), (1, 0x21#7)], tail := 2 }

/-- The head beyond `N`, without wrap (V-BUF-7). -/
def headBeyond : State := { State.reset with cfg := { defaultCfg with advanceHeadWrap := false }, head := 76, tail := 3 }

/-- The head past the tail, over unwritten slots (program P5). -/
def headPastTail : State := { State.reset with head := 1 }

/-! ### Well-formedness: an ill-formed configuration for each check of 00_scope.md R23 -/

theorem test_default_wellFormed : defaultCfg.wellFormed = true := by decide
theorem test_illformed_slots : { defaultCfg with n := 1 }.wellFormed = false := by decide
theorem test_illformed_break : { defaultCfg with tBreak := 0 }.wellFormed = false := by decide
theorem test_illformed_mark : { defaultCfg with tMark := 0 }.wellFormed = false := by decide
theorem test_illformed_bit : { defaultCfg with tBitTx := 0 }.wellFormed = false := by decide
theorem test_illformed_resample :
    { defaultCfg with rxSched := { schedCentre with rResample := 0 } }.wellFormed = false := by decide
theorem test_illformed_rxbit : { defaultCfg with rxSched := { schedCentre with tRxBit := 0 } }.wellFormed = false := by decide
theorem test_illformed_pargap : { defaultCfg with rxSched := { schedCentre with tParGap := 0 } }.wellFormed = false := by decide
theorem test_illformed_stopgap : { defaultCfg with rxSched := { schedCentre with tStopGap := 0 } }.wellFormed = false := by decide
theorem test_illformed_pins : { defaultCfg with pins := { defaultPins with rxData := 1 } }.wellFormed = false := by decide
/-- T_SETTLE and T_FIRST may be zero (R23). -/
theorem test_zero_delays_wellFormed :
    { defaultCfg with tSettle := 0, rxSched := { schedCentre with tFirst := 0 } }.wellFormed = true := by decide
/-- No operand makes a command ill-formed (30_encoding.md R105). -/
theorem test_instr_wellFormed : (Instr.setSt 255#8).wellFormed = true ∧ (Instr.advH 0#8).wellFormed = true := by decide

/-! ### Decoding: the words of 30_encoding.md R102, written out -/

theorem test_decode_begin : decode 0b0001000000000000#16 = .ok .beginRx := by decide
theorem test_decode_end : decode 0b0010000000000000#16 = .ok .endRx := by decide
theorem test_decode_hold : decode 0b0011000000000000#16 = .ok .hold := by decide
theorem test_decode_setst : decode 0b0100000000000100#16 = .ok (.setSt 4#8) := by decide
theorem test_decode_wake : decode 0b0101000000000000#16 = .ok .wake := by decide
theorem test_decode_wchar : decode 0b0110000001001101#16 = .ok (.wChar 0x4D#8) := by decide
theorem test_decode_avail : decode 0b0111000000000000#16 = .ok .avail := by decide
theorem test_decode_peek : decode 0b1000000000000000#16 = .ok .peek := by decide
theorem test_decode_read : decode 0b1001000000000000#16 = .ok .read := by decide
theorem test_decode_endlf : decode 0b1010000000000000#16 = .ok .endLf := by decide
theorem test_decode_endcr : decode 0b1011000000000000#16 = .ok .endCr := by decide
theorem test_decode_flush : decode 0b1100000000000000#16 = .ok .flush := by decide
theorem test_decode_advh : decode 0b1101000011111111#16 = .ok (.advH 255#8) := by decide
theorem test_decode_hasovf : decode 0b1110000000000000#16 = .ok .hasOvf := by decide
theorem test_decode_haspe : decode 0b1111000000000000#16 = .ok .hasPe := by decide
/-- V-ENC: `0x40F4` is legal, `0x4104`, `0x7001`, `0xF001`, `0x1100` and `0x0FFF` are not. -/
theorem test_decode_vectors :
    decode 0x40F4#16 = .ok (.setSt 0xF4#8) ∧ decode 0x4104#16 = .error .reservedBits ∧
      decode 0x7001#16 = .error .strayArgument ∧ decode 0xF001#16 = .error .strayArgument ∧
      decode 0x1100#16 = .error .reservedBits ∧ decode 0x0FFF#16 = .error .reservedOpcode := by decide
theorem test_decodeTableWord : decodeTableWord 16 0x6030 = some (.wChar 0x30#8) ∧ decodeTableWord 16 0x0001 = none := by decide
/-- The first step after reset runs the word placed on the port (log 3). -/
theorem test_placed_word_runs :
    nextIs (step (State.reset.withFetchWord 16 0x5000)) (fun t => t.hrem == 24160 && t.txData == .high && t.cmdReady) = true := by
  decide

/-! ### Line state: V-LS-1 and V-LS-3 -/

theorem test_begin_from_reset :
    nextIs (exec .beginRx State.reset) (fun t =>
      t.lineState == .interruptEnabled && !t.rxEn && t.txEn && t.txData == .high && t.rxPull == .up && t.armed &&
        t.hrem == 999) = true := by decide
/-- V-LS-4, in the numbers of log 21: the accepting tick shows `cmd_ready = 1`, the last busy tick 0, and the tick after it accepts. -/
theorem test_begin_busy_port :
    nextIs (step (withIn [cmdIn 0x1000#16 .low .hostFirst] State.reset)) (fun t => t.cmdReady && t.hrem == 999) = true ∧
      nextIs (step (withIn [cmdIn 0x7000#16 .low .hostFirst] { listening with hrem := 1 })) (fun t =>
        !t.cmdReady && !t.rspValid && t.hrem == 0) = true ∧
      nextIs (step (withIn [cmdIn 0x7000#16 .low .hostFirst] { listening with hrem := 0 })) (fun t => t.cmdReady && t.rspValid) = true := by
  decide
theorem test_begin_perr :
    nextIs (exec .beginRx { State.reset with perr := true }) (fun t => !t.perr) = true ∧
      nextIs (exec .beginRx { State.reset with perr := true, lineState := .holding }) (fun t => t.perr) = true := by decide
theorem test_end_inactive :
    nextIs (exec .endRx { listening with cfg := { defaultCfg with disabledTxEnable := .inactive } }) (fun t =>
      !t.txEn && !t.armed && t.txData == .high && t.rxPull == .up) = true := by decide
theorem test_hold_keeps_armed : nextIs (exec .hold listening) (fun t => t.armed && t.txData == .low && !t.rxEn) = true := by decide
theorem test_setst_listening :
    nextIs (exec (.setSt 3#8) listening) (fun t => t.rxEn && !t.txEn && t.txData == .high && t.armed && t.hrem == 0) = true := by
  decide
theorem test_setst_seven :
    nextIs (exec (.setSt 7#8) listening) (fun t =>
      t.diagValid && t.diagCode == 1#3 && t.lineState == .interruptEnabled && t.hrem == 0) = true := by decide

/-! ### Transmit: V-TX-2 to V-TX-5 -/

theorem test_txByte_vectors :
    txByte .fold8Replace 0x31#8 = 0xB1#8 ∧ txByte .fold8Replace 0x81#8 = 0x01#8 ∧ txByte .fold8Or 0x81#8 = 0x81#8 ∧
      txByte .mask7 0x80#8 = 0x00#8 ∧ txByte .mask7 0xFF#8 = 0xFF#8 := by decide
theorem test_wchar_frame_M :
    nextIs (exec (.wChar 0x4D#8) State.reset) (fun t =>
      t.wsegs.map (·.level) == [.high, .low, .high, .low, .low, .high, .high, .low, .high, .low] && t.hrem == 8049) = true := by
  decide
theorem test_wchar_stop_high :
    nextIs (exec (.wChar 0x0D#8) { State.reset with cfg := { defaultCfg with txStopLevel := .high } }) (fun t =>
      t.wsegs.map (·.level) == [.high, .low, .high, .low, .low, .high, .high, .high, .low, .high]) = true := by decide
theorem test_wake_waveform :
    nextIs (exec .wake State.reset) (fun t =>
      t.lineState == .transmitting && waveLevel t.wsegs 14160 == some .high && waveLevel t.wsegs 14161 == some .low &&
        waveLevel t.wsegs 24160 == some .low && waveLevel t.wsegs 24161 == none) = true := by decide
/-- The last busy tick of a waveform ends it and keeps its last level (41_transmit.md R167). -/
theorem test_waveform_ends :
    nextIs (step (withIn [idleIn .low .hostFirst]
      { State.reset with hrem := 1, wsegs := [⟨.high, 2⟩, ⟨.low, 1⟩], wpos := 1, txData := .high })) (fun t =>
        t.txData == .low && t.wsegs == [] && t.wpos == 0 && t.hrem == 0 && !t.cmdReady) = true := by decide

/-! ### Buffer: V-BUF-3 to V-BUF-8 -/

theorem test_avail_wraps :
    nextIs (exec .avail { State.reset with head := 70, tail := 3 }) (fun t => t.rsp == 0x0008#16 && t.rspValid) = true := by decide
theorem test_avail_overflow : nextIs (exec .avail { State.reset with ovf := true }) (fun t => t.rsp == 0xFFFF#16) = true := by decide
theorem test_peek : nextIs (exec .peek threeStored) (fun t => t.rsp == 0x0030#16 && t.head == 0) = true := by decide
theorem test_read_wraps :
    nextIs (exec .read { State.reset with head := 74, tail := 1, buf := [(74, 0x0D#7)], ovf := true }) (fun t =>
      t.rsp == 0x000D#16 && t.head == 0 && !t.ovf) = true := by decide
theorem test_read_empty_keeps_ovf :
    nextIs (exec .read { State.reset with ovf := true }) (fun t => t.rsp == 0xFFFF#16 && t.ovf) = true := by decide
theorem test_endlf : nextIs (exec .endLf threeStored) (fun t => t.rsp == 0x0001#16) = true := by decide
theorem test_endlf_slot74 :
    nextIs (exec .endLf { State.reset with head := 74, tail := 0, buf := [(74, 0x0A#7)] }) (fun t => t.rsp == 0x0001#16) = true := by
  decide
theorem test_endcr : nextIs (exec .endCr threeStored) (fun t => t.rsp == 0x0001#16) = true := by decide
theorem test_endcr_one_byte : nextIs (exec .endCr { threeStored with head := 2 }) (fun t => t.rsp == 0x0000#16) = true := by decide
theorem test_flush_keeps_slots :
    nextIs (exec .flush { threeStored with ovf := true, perr := true, lineState := .listening }) (fun t =>
      t.head == 0 && t.tail == 0 && !t.ovf && !t.perr && t.buf == threeStored.buf && t.lineState == .listening) = true := by decide
theorem test_advh_wraps :
    nextIs (exec (.advH 8#8) { State.reset with head := 70, tail := 10 }) (fun t => t.head == 3 && t.rsp == 0#16) = true := by decide
theorem test_advh_unwrapped :
    nextIs (exec (.advH 74#8) { headBeyond with head := 2 }) (fun t => t.head == 76) = true ∧
      faultIs (exec .avail headBeyond) (.indexOutOfRange 76) = true := by decide
theorem test_hasovf : nextIs (exec .hasOvf { State.reset with ovf := true }) (fun t => t.rsp == 1#16 && t.ovf) = true := by decide
theorem test_haspe : nextIs (exec .hasPe { State.reset with perr := true }) (fun t => t.rsp == 1#16 && t.perr) = true := by decide
/-- V-BUF-6: two bytes stored across the wrap. -/
theorem test_enqueue_wraps :
    nextIs (enqueueMany [0x0D#7, 0x0A#7] { State.reset with head := 74, tail := 74 }) (fun t =>
      t.tail == 1 && slotAt t.buf 74 == some 0x0D#7 && slotAt t.buf 0 == some 0x0A#7) = true := by decide
/-- V-BUF-8: `FLUSH` in the tick in which a decode completes, in both orders. -/
theorem test_flush_race :
    nextIs (step (withIn [cmdIn 0xC000#16 .high .hostFirst]
      { threeStored with dseq := .busy 7647 0x44#7 .low .low })) (fun t => t.head == 0 && t.tail == 1 && slotAt t.buf 0 == some 0x44#7) =
        true ∧
      nextIs (step (withIn [cmdIn 0xC000#16 .high .decoderFirst]
        { threeStored with dseq := .busy 7647 0x44#7 .low .low })) (fun t =>
          t.head == 0 && t.tail == 0 && slotAt t.buf 3 == some 0x44#7) = true := by decide

/-! ### Receive: V-RX-1 to V-RX-13 -/

theorem test_instants :
    instResample defaultCfg = 1 ∧ instData defaultCfg 6 = 6038 ∧ instParity defaultCfg = 6843 ∧ instDone defaultCfg = 7648 := by decide
/-- V-RX-2: a glitch of one tick leaves no trace but the level register. -/
theorem test_spurious :
    nextIs (runSteps 2 (withIn [idleIn .low .hostFirst, idleIn .high .decoderFirst] listening)) (fun t =>
      t.dseq == .idle && !t.perr && t.tail == 0 && t.rxPrev == .high) = true := by decide
/-- V-RX-6: a stop bit read `LOW`. -/
theorem test_framing_error :
    nextIs (step (withIn [idleIn .low .hostFirst] (busyAt 7647))) (fun t =>
      t.perr && t.lineState == .disabled && !t.armed && t.txEn && t.txData == .high && t.tail == 0 && t.dseq == .idle) = true := by
  decide
/-- V-RX-7: with `PERR` set and the bus armed again, an edge is refused. -/
theorem test_refused_edge :
    nextIs (step (withIn [idleIn .low .hostFirst] { listening with perr := true })) (fun t => t.dseq == .idle) = true := by decide
/-- V-RX-11 and V-RX-12: disarmed, or without a `HIGH` before, nothing starts. -/
theorem test_no_start :
    nextIs (step (withIn [idleIn .low .hostFirst] { listening with armed := false })) (fun t => t.dseq == .idle) = true ∧
      nextIs (step (withIn [idleIn .low .hostFirst] { listening with rxPrev := .low })) (fun t => t.dseq == .idle) = true := by decide
/-- V-RX-13: a byte completed after `END` is stored; 0x55 has even parity, and the parity slot read `LOW`. -/
theorem test_byte_after_end :
    nextIs (step (withIn [idleIn .high .hostFirst] { busyAt 7647 with lineState := .disabled, armed := false })) (fun t =>
      slotAt t.buf 0 == some 0x55#7 && t.tail == 1 && t.lineState == .disabled && !t.perr) = true := by decide
/-- V-RX-5: `Unconditional` fails a good frame; `Gated` fails one of wrong parity. -/
theorem test_parity_modes :
    rxOutcome .unconditional 0x30#7 .low .high = .parityFault ∧ rxOutcome .gated 0x30#7 .high .high = .parityFault ∧
      rxOutcome .gated 0x30#7 .low .high = .byte 0x30#7 := by decide
/-- An edge seen while `Busy` with `EDGE_LATCH` starts a decode in the first idle tick (42_receive.md R193). -/
theorem test_edge_latch :
    nextIs (runSteps 2 (withIn [idleIn .low .hostFirst, idleIn .low .hostFirst]
      { busyAt 7 with cfg := { defaultCfg with edgeLatch := true }, rxPrev := .high })) (fun t => t.edgePend) = true ∧
    nextIs (step (withIn [idleIn .low .hostFirst]
      { listening with cfg := { defaultCfg with edgeLatch := true }, edgePend := true, rxPrev := .low })) (fun t =>
        t.dseq == .busy 0 0#7 .low .low && !t.edgePend) = true := by decide

/-! ### Errors and reset: V-EXC and program P5 -/

theorem test_illegal_word :
    nextIs (step (withIn [cmdIn 0x7001#16 .low .hostFirst] State.reset)) (fun t =>
      t.diagValid && t.diagCode == 2#3 && !t.rspValid && t.hrem == 0) = true := by decide
/-- V-EXC-2: `BEGIN` in the tick of a framing error, in both orders. -/
theorem test_begin_race :
    nextIs (step (withIn [cmdIn 0x1000#16 .low .hostFirst] (busyAt 7647))) (fun t => t.lineState == .disabled && t.perr && !t.armed) =
        true ∧
      nextIs (step (withIn [cmdIn 0x1000#16 .low .decoderFirst] (busyAt 7647))) (fun t =>
        t.lineState == .interruptEnabled && !t.perr && t.armed) = true := by decide
/-- V-EXC-4: reset in the middle of a waveform; the word presented is not accepted. -/
theorem test_reset_tick :
    nextIs (step (withIn [rstIn 0x7000#16] { State.reset with hrem := 5, wsegs := [⟨.high, 9⟩], wpos := 3, txData := .high })) (fun t =>
      t.txData == .low && t.hrem == 0 && !t.rspValid && !t.cmdReady && t.wsegs == []) = true := by decide
/-- P5: `PEEK` of an unwritten slot sets the fault mark, writes no result and pulses nothing. -/
theorem test_fault_mark :
    nextIs (step (withIn [cmdIn 0x8000#16 .high .hostFirst] { headPastTail with rsp := 0x004A#16, rspValid := true })) (fun t =>
      t.faultMark == some (.uninitSlotRead 1) && t.rsp == 0x004A#16 && !t.rspValid && t.head == 1) = true := by decide
/-- V-EXC-6: after it, a tick with `rst = 1` is not taken. -/
theorem test_fault_absorbs :
    faultIs (step (withIn [rstIn 0#16] { headPastTail with faultMark := some (.uninitSlotRead 1) })) (.uninitSlotRead 1) = true := by
  decide

/-! ### Assembler: program P1 and 30_encoding.md R110, R111 -/

theorem test_assemble_sendcmd :
    assembleLine "SENDCMD \"0M!\\n\"".toList =
      some [0x5000#16, 0x6030#16, 0x604D#16, 0x6021#16, 0x600A#16, 0x4003#16] := by decide
theorem test_assemble_lines :
    assembleLine "  setst InterruptEnabled ; arm".toList = some [0x4004#16] ∧ assembleLine "WCHAR 'M'".toList = some [0x604D#16] ∧
      assembleLine ".word 0x1100".toList = some [0x1100#16] ∧ assembleLine "ADVH 256".toList = none := by decide

/-! ### Witnesses: each statement's hypotheses are met -/

theorem witness_IllegalWords :
    decode 0x0000#16 = .error .reservedOpcode ∧ decode 0xF100#16 = .error .reservedBits ∧ decode 0x10FF#16 = .error .strayArgument := by
  decide
theorem witness_OperandsAlwaysLegal : 5 ≤ (5#8 : Byte).toNat ∧ 5 ≤ (255#8 : Byte).toNat := by decide
theorem witness_StepRunsAcceptedCommand :
    State.reset.cfg.wellFormed = true ∧ State.reset.faultMark = none ∧
      accepts (cmdIn 0x7000#16 .low .decoderFirst) (withIn [cmdIn 0x7000#16 .low .decoderFirst] State.reset) .avail :=
  ⟨by decide, rfl, rfl, rfl, rfl, by decide⟩
/-- Ticks without an accepted command, in which the decoder acts all the same: an idle tick, an illegal word, a busy port. -/
theorem witness_StepRunsBothActs :
    (withIn [idleIn .low .decoderFirst] listening).currentIn.rst = false ∧
      nextIs (step (withIn [idleIn .low .decoderFirst] listening)) (fun t => t.dseq == .busy 0 0#7 .low .low && t.rxPrev == .low) = true ∧
      nextIs (step (withIn [cmdIn 0x0000#16 .low .hostFirst] listening)) (fun t => t.dseq == .busy 0 0#7 .low .low && t.diagValid) = true ∧
      nextIs (step (withIn [cmdIn 0x7000#16 .low .hostFirst] { listening with hrem := 9 })) (fun t =>
        t.dseq == .busy 0 0#7 .low .low && t.hrem == 8 && !t.rspValid) = true := by decide
theorem witness_HostActFollowsItsRule :
    (0 < (3 : Nat) ∧ { State.reset with hrem := 3 }.wsegs = []) ∧
      (∃ s : State, 0 < s.hrem ∧ s.wsegs ≠ [] ∧ waveLevel s.wsegs (s.wpos + 1) = some .high ∧ s.hrem = 1) ∧
      (State.reset.hrem = 0 ∧ (idleIn .low .hostFirst).cmdValid = false) ∧
      (cmdIn 0x5000#16 .low .hostFirst).cmdValid = true ∧ decode 0x5000#16 = .ok .wake ∧ decode 0x0000#16 = .error .reservedOpcode ∧
      nextIs (step (withIn [cmdIn 0x5000#16 .low .decoderFirst] State.reset)) (fun t => t.cmdReady && t.hrem == 24160) = true :=
  ⟨by decide, ⟨{ State.reset with hrem := 1, wsegs := [⟨.high, 2⟩], wpos := 0 }, by decide⟩, by decide, by decide, by decide, by decide,
    by decide⟩
theorem witness_DiagnosticPort :
    nextIs (step (withIn [cmdIn 0x4005#16 .low .decoderFirst] State.reset)) (fun t => t.faultMark == none && t.diagCode == 1#3) = true ∧
      nextIs (step (withIn [cmdIn 0x4004#16 .low .hostFirst] State.reset)) (fun t => t.faultMark == none && t.diagCode == 0#3) = true := by
  decide
/-- A waveform in its second tick of four, and two inputs to come. -/
def midWave : State :=
  withIn [idleIn .low .hostFirst, cmdIn 0x1000#16 .low .decoderFirst]
    { State.reset with hrem := 2, wsegs := [⟨.high, 2⟩, ⟨.low, 2⟩], wpos := 1, txData := .high }
theorem witness_BusyPortPlaysTheWaveform :
    midWave.WaveInv ∧ 2 ≤ midWave.hrem ∧ 2 ≤ midWave.inputs.length ∧ (∀ x ∈ midWave.inputs.take 2, x.rst = false) ∧
      nextIs (runSteps 2 midWave) (fun t => t.faultMark == none) = true := by decide
theorem witness_StepsNeverHang :
    (State.reset.cfg.wellFormed = true ∧ State.reset.faultMark = none) ∧
      nextIs (step (withIn [idleIn .low .hostFirst] { State.reset with hrem := 1 })) (fun t => t.faultMark == none && t.hrem == 0) = true ∧
      7646 < instDone (busyAt 7646).cfg ∧
      nextIs (step (withIn [idleIn .high .hostFirst] (busyAt 7646))) (fun t =>
        t.faultMark == none && t.dseq == .busy 7647 0x55#7 .low .low) = true ∧
      nextIs (step (withIn [idleIn .high .hostFirst] (busyAt 7647))) (fun t => t.faultMark == none && t.dseq == .idle) = true := by decide
theorem witness_ResetTick :
    (withIn [rstIn 0#16] midWave).cfg.wellFormed = true ∧ (withIn [rstIn 0#16] midWave).faultMark = none ∧
      (withIn [rstIn 0#16] midWave).currentIn.rst = true := by decide
theorem witness_FaultIsAbsorbing :
    headPastTail.cfg.wellFormed = true ∧ { headPastTail with faultMark := some (.indexOutOfRange 76) }.faultMark ≠ none := by decide
theorem witness_StepKeepsBufferInv :
    smallFull.BufferInv ∧ nextIs (step (withIn [cmdIn 0x9000#16 .low .hostFirst] smallFull)) (fun t => t.head == 1) = true := by decide
theorem witness_StepKeepsLineInv :
    listening.LineInv ∧ nextIs (step (withIn [cmdIn 0x2000#16 .low .hostFirst] listening)) (fun t => !t.armed) = true := by decide
theorem witness_StepKeepsWaveInv : midWave.WaveInv ∧ nextIs (step midWave) (fun t => t.wpos == 2) = true := by decide
theorem witness_StepKeepsDecoderInv :
    (busyAt 7646).DecoderInv ∧
      nextIs (step (withIn [idleIn .high .hostFirst] (busyAt 7646))) (fun t => t.dseq == .busy 7647 0x55#7 .low .low) = true :=
  ⟨⟨⟨by decide, by decide⟩, fun _ => rfl⟩, by decide⟩
theorem witness_StepKeepsLiveSlotsWritten :
    threeStored.BufferInv ∧ threeStored.cfg.advanceHeadWrap = true ∧ threeStored.LiveWritten ∧ (3#8 : Byte).toNat ≤ threeStored.stored ∧
      nextIs (step (withIn [cmdIn 0xD003#16 .low .hostFirst] threeStored)) (fun t => t.head == 3) = true := by decide
theorem witness_HostAccessRights :
    nextIs (hostAct (cmdIn 0xC000#16 .low .hostFirst) { threeStored with ovf := true, perr := true }) (fun t =>
      t.tail == 0 && !t.ovf && !t.perr) = true ∧
      nextIs (hostAct (cmdIn 0x9000#16 .low .hostFirst) threeStored) (fun t => t.head == 1 && t.rsp == 0x30#16) = true ∧
      nextIs (hostAct (cmdIn 0x4004#16 .low .hostFirst) State.reset) (fun t => t.rxPull == .up && t.armed && t.txData == .high) = true ∧
      nextIs (hostAct (cmdIn 0x3000#16 .low .hostFirst) listening) (fun t => t.txData == .low) = true := by decide
theorem witness_DecoderAccessRights :
    nextIs (decoderAct .low (busyAt 7647)) (fun t => t.lineState == .disabled && t.perr) = true ∧
      nextIs (decoderAct .high (busyAt 7647)) (fun t => t.tail == 1) = true := by decide
theorem witness_FlagsAreSticky :
    nextIs (step (withIn [cmdIn 0x1000#16 .low .hostFirst] { State.reset with perr := true })) (fun t => !t.perr) = true ∧
      nextIs (step (withIn [cmdIn 0x9000#16 .low .hostFirst] { threeStored with ovf := true })) (fun t => !t.ovf) = true := by decide
theorem witness_ParityErrorHaltsReception :
    nextIs (step (withIn [idleIn .low .hostFirst] { listening with perr := true })) (fun t => t.perr) = true ∧
      { listening with perr := true }.dseq = .idle ∧ (idleIn .low .hostFirst).rst = false ∧
      ¬accepts (idleIn .low .hostFirst) listening .flush ∧ ¬accepts (idleIn .low .hostFirst) listening .beginRx :=
  ⟨by decide, rfl, rfl, fun h => absurd h.2.2.1 (by decide), fun h => absurd h.2.2.1 (by decide)⟩
theorem witness_SameTickRaces :
    2 ≤ threeStored.cfg.n ∧ threeStored.head < threeStored.cfg.n ∧ threeStored.tail < threeStored.cfg.n ∧
      (threeStored.tail + 1) % threeStored.cfg.n ≠ threeStored.head ∧ listening.cfg.beginClear = .fromDisabled ∧
      listening.lineState = .interruptEnabled := by decide
theorem witness_WakeAndWCharComplete : State.reset.cfg.wellFormed = true := by decide
theorem witness_CommandsLastTheirDuration : nextIs (exec (.setSt 4#8) State.reset) (fun t => t.hrem == 999) = true := by decide
theorem witness_DecoderTrigger :
    listening.dseq = .idle ∧ nextIs (decoderAct .low listening) (fun t => t.dseq == .busy 0 0#7 .low .low) = true ∧
      nextIs (decoderAct .high listening) (fun t => t == listening) = true ∧
      { busyAt 7 with rxPrev := .high }.dseq = .busy 7 0x55#7 .low .low ∧
      nextIs (decoderAct .low { busyAt 7 with rxPrev := .high }) (fun t => !t.edgePend) = true := by decide
theorem witness_SpuriousEdgeEndsTheDecode :
    (busyAt 0).cfg.wellFormed = true ∧ (busyAt 0).dseq = .busy 0 0x55#7 .low .low ∧ 0 + 1 = (busyAt 0).cfg.rxSched.rResample := by decide
theorem witness_DataBitSampled :
    (busyAt 1207).cfg.wellFormed = true ∧ (busyAt 1207).dseq = .busy 1207 0x55#7 .low .low ∧
      1207 + 1 = instData (busyAt 1207).cfg 0 ∧ 6037 + 1 = instData (busyAt 6037).cfg 6 ∧
      nextIs (decoderAct .high (busyAt 2012)) (fun t => t.dseq == .busy 2013 0x57#7 .low .low) = true := by decide
theorem witness_FramingErrorFails :
    (busyAt 7647).dseq = .busy 7647 0x55#7 .low .low ∧ 7647 + 1 = instStop (busyAt 7647).cfg := by decide
theorem witness_SamplingInstants :
    defaultCfg.parityMode = .gated ∧ { defaultCfg with parityMode := .unconditional }.parityMode = .unconditional := by decide
/-- The bounds of R197 at `num / den`: 764.8 is out, 7649/10 is in, 7648/9 is in, 849.78 rounded up is out. -/
theorem witness_SchedulesFitPeriods :
    fitsPeriod defaultCfg 7648 10 = false ∧ fitsPeriod defaultCfg 7649 10 = true ∧ fitsPeriod defaultCfg 7648 9 = true ∧
      fitsPeriod defaultCfg 7649 9 = false := by decide
theorem witness_DecodeIgnoresTheLineState :
    (busyAt 7647).dseq = .busy 7647 0x55#7 .low .low ∧
      nextIs (decoderAct .high (busyAt 7647)) (fun t => t.tail == 1 && t.armed && t.lineState == .interruptEnabled) = true ∧
      nextIs (decoderAct .low (busyAt 7647)) (fun t => !t.armed && t.lineState == .disabled) = true := by decide
/-- The looped-back frame of `'0'` = 0x30 meets every hypothesis of the two decode statements, and its samples give the byte. -/
theorem witness_DecodeFollowsTheSamples :
    listening.cfg.wellFormed = true ∧ listening.BufferInv ∧ listening.head < listening.cfg.n ∧ listening.dseq = .idle ∧
      listening.armed = true ∧ listening.perr = false ∧ listening.rxPrev = .high ∧ loopback defaultCfg 0x30#8 0 = .low ∧
      loopback defaultCfg 0x30#8 (instResample defaultCfg) = .low ∧
      (∀ k, k < 7 → (0x30#7 : Slot).getLsbD k = decide (loopback defaultCfg 0x30#8 (instData defaultCfg k) = .high)) ∧
      rxOutcome .gated 0x30#7 (loopback defaultCfg 0x30#8 (instParity defaultCfg)) (loopback defaultCfg 0x30#8 (instStop defaultCfg)) =
        .byte 0x30#7 := by decide
/-- The bus listening over a full buffer of three slots. -/
def listeningFull : State :=
  { listening with cfg := smallFull.cfg, buf := smallFull.buf, tail := smallFull.tail }
/-- The full branch: the same frame over a full buffer. -/
theorem witness_DecodeFollowsTheSamples_full :
    listeningFull.cfg.wellFormed = true ∧ listeningFull.BufferInv ∧ listeningFull.head < listeningFull.cfg.n ∧
      listeningFull.dseq = .idle ∧ listeningFull.armed = true ∧ listeningFull.perr = false ∧ listeningFull.rxPrev = .high ∧
      (listeningFull.tail + 1) % listeningFull.cfg.n = listeningFull.head ∧ loopback listeningFull.cfg 0x30#8 0 = .low ∧
      loopback listeningFull.cfg 0x30#8 (instResample listeningFull.cfg) = .low ∧
      (∀ k, k < 7 → (0x30#7 : Slot).getLsbD k =
        decide (loopback listeningFull.cfg 0x30#8 (instData listeningFull.cfg k) = .high)) ∧
      rxOutcome .gated 0x30#7 (loopback listeningFull.cfg 0x30#8 (instParity listeningFull.cfg))
        (loopback listeningFull.cfg 0x30#8 (instStop listeningFull.cfg)) = .byte 0x30#7 := by decide
/-- The failing branches, from the state `listening` of the witness above: a line held `LOW` is a framing error of byte 0, and one that rises
after the data bits, so that the parity and the stop sample read `HIGH`, a parity fault of it. -/
theorem witness_DecodeFollowsTheSamples_fails :
    (∀ k, k < 7 → (0#7 : Slot).getLsbD k = decide ((fun _ : Nat => Level.low) (instData defaultCfg k) = .high)) ∧
      rxOutcome .gated 0#7 .low .low = .framingError ∧
      (∀ k, k < 7 → (0#7 : Slot).getLsbD k =
        decide ((fun o : Nat => if 6800 ≤ o then Level.high else .low) (instData defaultCfg k) = .high)) ∧
      rxOutcome .gated 0#7 .high .high = .parityFault := by decide
theorem witness_LoopbackStoresTheByte :
    listening.cfg.wellFormed = true ∧ fitsPeriod listening.cfg listening.cfg.tBitTx 1 = true ∧
      (listening.cfg.parityMode = .gated ∧ listening.cfg.txStopLevel = .low ∧ (0x7F#8 : Byte).toNat < 128 ∧
        (listening.tail + 1) % listening.cfg.n ≠ listening.head) ∧
      fitsPeriod listeningFull.cfg listeningFull.cfg.tBitTx 1 = true := by decide
/-- The failing branches: V-TX-4 (0x80 has odd parity under `Fold8Replace` and even parity under `Mask7`), a `HIGH` stop level, `Unconditional`. -/
theorem witness_LoopbackStoresTheByte_fails :
    parity8 (txByte .fold8Replace 0x80#8) = true ∧ parity8 (txByte .mask7 0x80#8) = false ∧
      fitsPeriod { defaultCfg with txStopLevel := .high } 805 1 = true ∧
      fitsPeriod { defaultCfg with parityMode := .unconditional } 805 1 = true := by decide
theorem witness_EnqueueEffect :
    headBeyond.cfg.n ≤ headBeyond.head ∧ (smallFull.head < smallFull.cfg.n ∧ (smallFull.tail + 1) % smallFull.cfg.n = smallFull.head) ∧
      (threeStored.head < threeStored.cfg.n ∧ (threeStored.tail + 1) % threeStored.cfg.n ≠ threeStored.head ∧
        threeStored.tail < threeStored.cfg.n) := by decide
theorem witness_AvailCompletes :
    { State.reset with ovf := true }.ovf = true ∧
      ({ State.reset with head := 74 }.ovf = false ∧ { State.reset with head := 74 }.head < State.reset.cfg.n ∧ (0 + 75 - 74) % 75 < 65536) ∧
      (headBeyond.ovf = false ∧ headBeyond.cfg.n ≤ headBeyond.head) := by decide
theorem witness_PeekAndReadComplete :
    State.reset.head = State.reset.tail ∧
      (threeStored.head ≠ threeStored.tail ∧ threeStored.head < threeStored.cfg.n ∧ slotAt threeStored.buf threeStored.head = some 0x30#7) ∧
      (headPastTail.head ≠ headPastTail.tail ∧ headPastTail.head < headPastTail.cfg.n ∧
        slotAt headPastTail.buf headPastTail.head = none) ∧
      (headBeyond.head ≠ headBeyond.tail ∧ headBeyond.cfg.n ≤ headBeyond.head) := by decide
theorem witness_EndLfAndEndCrComplete :
    (State.reset.tail < State.reset.cfg.n ∧ State.reset.head = State.reset.tail) ∧
      (threeStored.head ≠ threeStored.tail ∧ slotAt threeStored.buf ((threeStored.tail + 75 - 1) % 75) = some 0x0A#7) ∧
      (2 ≤ (threeStored.tail + 75 - threeStored.head) % 75 ∧
        slotAt threeStored.buf ((threeStored.tail + 75 - 2) % 75) = some 0x0D#7) ∧
      (headPastTail.head ≠ headPastTail.tail ∧ slotAt headPastTail.buf ((headPastTail.tail + 75 - 1) % 75) = none ∧
        2 ≤ (headPastTail.tail + 75 - headPastTail.head) % 75 ∧ slotAt headPastTail.buf ((headPastTail.tail + 75 - 2) % 75) = none) ∧
      (headBeyond.tail < headBeyond.cfg.n ∧ headBeyond.cfg.n ≤ headBeyond.head) := by decide
theorem witness_FlushCompletes :
    threeStored.cfg.wellFormed = true ∧ nextIs (exec .flush threeStored) (fun t => t.tail == 0) = true := by decide
theorem witness_LiveReadsComplete :
    threeStored.BufferInv ∧ threeStored.head < threeStored.cfg.n ∧ threeStored.LiveWritten := by decide
theorem witness_BufferIsAQueue :
    threeStored.stored < threeStored.cfg.n - 1 ∧ threeStored.contents = some 0x30#7 :: [some 0x0D#7, some 0x0A#7] := by decide
theorem witness_FifoOrder :
    State.reset.cfg.wellFormed = true ∧ State.reset.BufferInv ∧ State.reset.head = State.reset.tail ∧ State.reset.ovf = false ∧
      [0x41#7, 0x42#7].length ≤ State.reset.cfg.n - 1 := by decide
theorem witness_OverflowAndRecovery :
    smallFull.BufferInv ∧ smallFull.head < smallFull.cfg.n ∧ 2 ≤ smallFull.cfg.n ∧ smallFull.cfg.n ≤ 65536 ∧
      smallFull.stored = smallFull.cfg.n - 1 ∧ smallFull.contents = some 0x20#7 :: [some 0x21#7] := by decide
theorem witness_PortsShowTheRegisters :
    State.reset.txEn = true ∧ State.reset.rxEn = false ∧ State.reset.portsOut.txEnPin = .high ∧ State.reset.portsOut.rxEnPin = .low := by
  decide

end Sys2Proof.Tests
end

section
/-!
PROOFS. The scope of the block (spec/00_scope.md): which configurations are refused (R23, R241), and what the output ports show (R19, R40).
-/

namespace Sys2Proof

/-- The pairwise check of the pin identifiers says that their list has no duplicates (R20, R23). -/
theorem Pins.distinct_iff_nodup (p : Pins) :
    p.distinct = true ↔ [p.txEnable, p.txData, p.rxEnable, p.rxData].Nodup := by
  simp [Pins.distinct, and_assoc]

/-- The opposite level is another level. -/
@[simp] theorem Level.flip_ne (l : Level) : l.flip ≠ l := by cases l <;> decide

end Sys2Proof

namespace Sys2Proof.Machine

/-! ### Refusal -/

/-- No agent's act refuses, so neither do the two acts in either order. -/
theorem agentsAct_not_refused (io : TickIn) (s : State) (x : Refusal) : agentsAct io s ≠ .refused x := by
  have hHost := hostAct_not_refused io
  have hDecoder := decoderAct_not_refused io.rxData
  have hNext : ∃ t, agentsAct io s = .next t := by
    unfold agentsAct
    cases io.order with
    | hostFirst => exact bothActs_total hHost hDecoder
    | decoderFirst => exact bothActs_total hDecoder hHost
  obtain ⟨t, ht⟩ := hNext
  simp [ht]

/-- No tick refuses, a reset tick included. -/
theorem tickWith_not_refused (io : TickIn) (s : State) (x : Refusal) : tickWith io s ≠ .refused x := by
  unfold tickWith
  split
  · simp
  · cases h : agentsAct io s.beginTick with
    | next t => simp [endingTick]
    | fault f => simp [endingTick]
    | refused y => exact absurd h (agentsAct_not_refused io s.beginTick y)

/-- The configuration check is the one place where a step is refused (R23, R241). -/
theorem step_refused_iff (s : State) (x : Refusal) :
    step s = .refused x ↔ s.cfg.wellFormed = false ∧ x = .configInvalid := by
  unfold step
  split
  · next hc => simp [hc, eq_comm]
  · next hc =>
    have hRun : runTick s ≠ .refused x := tickWith_not_refused s.currentIn s.advance x
    cases s.faultMark with
    | some k => simp [hc]
    | none => simp [hc, hRun]

/-- Settles O13: the executable check spells out R23's list, and no act of a well-formed block refuses. -/
theorem illFormedConfigurationIsRefused : Obligations.IllFormedConfigurationIsRefused := by
  unfold Obligations.IllFormedConfigurationIsRefused
  constructor
  · intro c
    simp only [Cfg.wellFormed, Bool.and_eq_true, decide_eq_true_eq, Pins.distinct_iff_nodup, Nat.zero_le, true_and, and_assoc]
  · intro s
    simp [step_refused_iff]

/-! ### Ports -/

/-- An enable pin is at the active level exactly when its logical enable is 1 (R19, R40). -/
theorem enablePin_eq_active_iff (c : Cfg) (en : Bool) : enablePin c en = c.enActiveLevel ↔ en = true := by
  cases en <;> simp [enablePin]

/-- Settles O60: the registers by definition, the pull by its three modes, the enable pins by `enablePin_eq_active_iff`. -/
theorem portsShowTheRegisters : Obligations.PortsShowTheRegisters := by
  unfold Obligations.PortsShowTheRegisters
  intro s
  have hTx : s.portsOut.txEnPin = s.cfg.enActiveLevel ↔ s.txEn = true := enablePin_eq_active_iff s.cfg s.txEn
  have hRx : s.portsOut.rxEnPin = s.cfg.enActiveLevel ↔ s.rxEn = true := enablePin_eq_active_iff s.cfg s.rxEn
  refine ⟨rfl, rfl, rfl, rfl, ?_, hTx.mpr, ?_, hRx.mpr, ?_⟩
  · show codeOfPull s.rxPull = _
    cases s.rxPull <;> rfl
  · intro hOff hPin
    simp [hTx.mp hPin] at hOff
  · intro hOff hPin
    simp [hRx.mp hPin] at hOff

end Sys2Proof.Machine
end

section
/-!
PROOFS. Rules about the two agents' acts, each said once: what a command keeps (`exec_keeps`) and which command may change a register; what the
decoder's act keeps (`decoderAct_keeps`); the fields each act leaves alone; and the step without reset (`step_keeps_without_reset`).
-/

namespace Sys2Proof.Machine

/-! ### Commands -/

/-- The line state a command sets, if it sets one (40_line_state.md R145 to R149; 41_transmit.md R164). -/
def stateSetBy : Instr → Option LineState
  | .beginRx => some .interruptEnabled
  | .endRx => some .disabled
  | .hold => some .holding
  | .wake => some .transmitting
  | .setSt c => stateOfCode c
  | .wChar _ | .avail | .peek | .read | .endLf | .endCr | .flush | .advH _ | .hasOvf | .hasPe => none

/-- The commands that answer a result in `RSP` (43_buffer.md R211). -/
def queryCommands : List Instr := [.avail, .peek, .read, .endLf, .endCr, .hasOvf, .hasPe]

/-- The codes `SETST` recognizes are those of `codeOfState` (30_encoding.md R124). -/
theorem stateOfCode_eq_some_iff {c : Byte} {ls : LineState} :
    stateOfCode c = some ls ↔ c = (codeOfState ls).setWidth 8 := by
  constructor
  · intro h
    apply BitVec.eq_of_toNat_eq
    unfold stateOfCode at h
    split at h <;> cases h <;> simpa [codeOfState]
  · rintro rfl
    cases ls <;> rfl

/-- A recognized code is at most 4. -/
theorem stateOfCode_some_le {c : Byte} {ls : LineState} (h : stateOfCode c = some ls) : c.toNat ≤ 4 := by
  rw [stateOfCode_eq_some_iff.1 h]
  cases ls <;> decide

/-- The package of a property over the operations a command is made of: what each of them keeps, the command keeps. A command runs only the
operations its premise names; the default of a premise says that the operation writes nothing the property reads. -/
theorem exec_keeps {P : State → Prop} {i : Instr} {s t : State} (h : exec i s = .next t) (hs : P s)
    (occupy : ∀ u d, P u → P (u.occupy d) := by exact fun _ _ hu => hu)
    (beginClear : i = .beginRx → ∀ u, P u → P u.beginClear := by exact fun _ _ hu => hu)
    (setState : ∀ ls, stateSetBy i = some ls → ∀ u, P u → P (u.setState ls) := by exact fun _ _ _ hu => hu)
    (raiseDiag : ∀ u code, P u → P (u.raiseDiag code) := by exact fun _ _ hu => hu)
    (startWave : i = .wake ∨ (∃ b, i = .wChar b) → ∀ u segs, P u → P (u.startWave segs) := by exact fun _ _ _ hu => hu)
    (respond : i ∈ queryCommands → ∀ u v, P u → P (u.respond v) := by exact fun _ _ _ hu => hu)
    (pop : i = .read → ∀ u, P u → P u.pop := by exact fun _ _ hu => hu)
    (emptyBuffer : i = .flush → ∀ u, P u → P u.emptyBuffer := by exact fun _ _ hu => hu)
    (advanceHead : (∃ n, i = .advH n) → ∀ u k, P u → P (u.advanceHead k) := by exact fun _ _ _ hu => hu) : P t := by
  obtain ⟨d, hd⟩ := exec_cases h
  rcases hd with ⟨rfl, hi⟩ | ⟨ls, rfl, hi⟩ | ⟨rfl, -⟩ | ⟨rfl, -, hi⟩ | ⟨b, rfl, -, hi⟩ | ⟨v, rfl, hi⟩ | ⟨v, -, -, rfl, hi⟩ |
    ⟨rfl, hi⟩ | ⟨n, rfl, hi⟩ <;> refine occupy _ _ ?_
  · exact setState _ (by rw [hi]; rfl) _ (beginClear hi _ hs)
  · refine setState ls ?_ _ hs
    rcases hi with ⟨rfl, rfl⟩ | ⟨rfl, rfl⟩ | ⟨c, rfl, hc⟩
    · rfl
    · rfl
    · exact hc
  · exact raiseDiag _ _ hs
  · exact startWave (.inl hi) _ _ (setState _ (by rw [hi]; rfl) _ hs)
  · exact startWave (.inr ⟨b, hi⟩) _ _ hs
  · exact respond (by rcases hi with rfl | rfl | rfl | rfl | rfl | rfl | rfl <;> decide) _ _ hs
  · exact respond (by rw [hi]; decide) _ _ (pop hi _ hs)
  · exact emptyBuffer hi _ hs
  · exact advanceHead ⟨n, hi⟩ _ _ hs

variable {i : Instr} {io : TickIn} {rx : Level} {s t : State}

/-- `TAIL` is written by `FLUSH` alone. -/
theorem exec_tail (h : exec i s = .next t) : t.tail = s.tail ∨ (t.tail = 0 ∧ i = .flush) :=
  exec_keeps (P := fun u => u.tail = s.tail ∨ (u.tail = 0 ∧ i = .flush)) h (.inl rfl)
    (emptyBuffer := fun hi _ _ => .inr ⟨rfl, hi⟩)

/-- `HEAD` is written by `READ`, `FLUSH` and `ADVH` alone. -/
theorem exec_head (h : exec i s = .next t) : t.head = s.head ∨ i = .read ∨ i = .flush ∨ ∃ n, i = .advH n :=
  exec_keeps (P := fun u => u.head = s.head ∨ i = .read ∨ i = .flush ∨ ∃ n, i = .advH n) h (.inl rfl)
    (pop := fun hi _ _ => .inr (.inl hi)) (emptyBuffer := fun hi _ _ => .inr (.inr (.inl hi)))
    (advanceHead := fun hi _ _ _ => .inr (.inr (.inr hi)))

/-- `OVF` is only cleared, by `READ` and `FLUSH`. -/
theorem exec_ovf (h : exec i s = .next t) : t.ovf = s.ovf ∨ (t.ovf = false ∧ (i = .read ∨ i = .flush)) :=
  exec_keeps (P := fun u => u.ovf = s.ovf ∨ (u.ovf = false ∧ (i = .read ∨ i = .flush))) h (.inl rfl)
    (pop := fun hi _ _ => .inr ⟨rfl, .inl hi⟩) (emptyBuffer := fun hi _ _ => .inr ⟨rfl, .inr hi⟩)

/-- `BEGIN`'s conditional clearing leaves `PERR` or clears it. -/
theorem beginClear_perr_cases (s : State) : s.beginClear.perr = s.perr ∨ s.beginClear.perr = false := by
  cases hc : beginClears s <;> simp [hc]

/-- `PERR` is only cleared, by `FLUSH` and `BEGIN`. -/
theorem exec_perr (h : exec i s = .next t) : t.perr = s.perr ∨ (t.perr = false ∧ (i = .flush ∨ i = .beginRx)) := by
  refine exec_keeps (P := fun u => u.perr = s.perr ∨ (u.perr = false ∧ (i = .flush ∨ i = .beginRx))) h (.inl rfl)
    (beginClear := fun hi u hu => ?_) (emptyBuffer := fun hi _ _ => .inr ⟨rfl, .inl hi⟩)
  rcases beginClear_perr_cases u with hp | hp
  · rw [hp]; exact hu
  · exact .inr ⟨hp, .inr hi⟩

/-- The line-state registers are written only by a command that sets a line state (40_line_state.md R140). -/
theorem exec_lineRegisters (h : exec i s = .next t) :
    (t.lineState = s.lineState ∧ t.armed = s.armed ∧ t.txEn = s.txEn ∧ t.rxEn = s.rxEn) ∨ ∃ ls, stateSetBy i = some ls :=
  exec_keeps
    (P := fun u => (u.lineState = s.lineState ∧ u.armed = s.armed ∧ u.txEn = s.txEn ∧ u.rxEn = s.rxEn) ∨
      ∃ ls, stateSetBy i = some ls)
    h (.inl ⟨rfl, rfl, rfl, rfl⟩) (setState := fun ls hi _ _ => .inr ⟨ls, hi⟩)

/-- The pull is only set to up, by a command that sets InterruptEnabled (10_state.md R46). -/
theorem exec_rxPull (h : exec i s = .next t) :
    t.rxPull = s.rxPull ∨ (t.rxPull = .up ∧ stateSetBy i = some .interruptEnabled) := by
  refine exec_keeps (P := fun u => u.rxPull = s.rxPull ∨ (u.rxPull = .up ∧ stateSetBy i = some .interruptEnabled)) h (.inl rfl)
    (setState := fun ls hi u hu => ?_)
  cases ls with
  | interruptEnabled => exact .inr ⟨rfl, hi⟩
  | disabled | holding | transmitting | listening => exact hu

/-- `TX_DATA` is written only by the start of a waveform and by a command that sets Holding or InterruptEnabled. -/
theorem exec_txData (h : exec i s = .next t) :
    t.txData = s.txData ∨ (i = .wake ∨ ∃ b, i = .wChar b) ∨ stateSetBy i = some .holding ∨
      stateSetBy i = some .interruptEnabled := by
  refine exec_keeps
    (P := fun u => u.txData = s.txData ∨ (i = .wake ∨ ∃ b, i = .wChar b) ∨ stateSetBy i = some .holding ∨
      stateSetBy i = some .interruptEnabled)
    h (.inl rfl) (startWave := fun hi _ _ _ => .inr (.inl hi)) (setState := fun ls hi u hu => ?_)
  cases ls with
  | interruptEnabled => exact .inr (.inr (.inr hi))
  | holding => exact .inr (.inr (.inl hi))
  | disabled | transmitting | listening => exact hu

/-- `RSP` is written by the queries alone. -/
theorem exec_rsp (h : exec i s = .next t) : t.rsp = s.rsp ∨ i ∈ queryCommands :=
  exec_keeps (P := fun u => u.rsp = s.rsp ∨ i ∈ queryCommands) h (.inl rfl) (respond := fun hi _ _ _ => .inr hi)

/-! ### The host's act -/

/-- `u` has the slots, the decoder's sequencer and the model's own fields of `s`: what the host never writes (10_state.md R61). -/
def State.AgreesOffHost (s u : State) : Prop :=
  u.buf = s.buf ∧ u.dseq = s.dseq ∧ u.edgePend = s.edgePend ∧ u.rxPrev = s.rxPrev ∧ u.cfg = s.cfg ∧
    u.faultMark = s.faultMark ∧ u.inputs = s.inputs ∧ u.tick = s.tick

/-- The host's act writes nothing that is not the host's. -/
theorem hostAct_agreesOffHost (h : hostAct io s = .next t) : s.AgreesOffHost t :=
  hostAct_keeps (P := s.AgreesOffHost) h ⟨rfl, rfl, rfl, rfl, rfl, rfl, rfl, rfl⟩ (fun _ hu => hu) (fun _ _ hu => hu)
    (fun _ _ hu => hu) (fun _ _ _ _ hu hv => exec_keeps (P := s.AgreesOffHost) hv hu)

/-- In a tick with an occupied port the host's act is the busy tick. -/
theorem hostAct_busy (io : TickIn) {s : State} (hb : 0 < s.hrem) : hostAct io s = .next s.clearPulses.continueCommand := by
  simp [hostAct, hb]

/-- In a tick that accepts a command the host's act is that command's meaning (30_encoding.md R103). -/
theorem hostAct_of_accepts (h : accepts io s i) : hostAct io s = exec i s.clearPulses := by
  obtain ⟨-, hFree, hValid, hDecode⟩ := h
  simp [hostAct, performWord, hFree, hValid, hDecode]

/-- Whether a command is accepted depends on the state through `HREM` alone. -/
theorem accepts_congr (hr : t.hrem = s.hrem) : accepts io t i ↔ accepts io s i := by
  simp [accepts, hr]

/-- A register that a busy tick, an illegal word and the end of the pulses leave alone changes only by a command the port accepts. -/
theorem accepts_of_hostAct_ne {α : Type} (f : State → α) (hRst : io.rst = false) (h : hostAct io s = .next t)
    (hne : f t ≠ f s) (busy : 0 < s.hrem → f s.clearPulses.continueCommand = f s := by exact fun _ => rfl)
    (illegal : f (performIllegal s.clearPulses) = f s := by rfl) (idle : f s.clearPulses = f s := by rfl) :
    ∃ i, accepts io s i ∧ exec i s.clearPulses = .next t := by
  rcases hostAct_cases h with ⟨hb, rfl⟩ | ⟨hFree, hValid, i, hDecode, hi⟩ | ⟨-, -, -, rfl⟩ | ⟨-, -, rfl⟩
  · exact absurd (busy hb) hne
  · exact ⟨i, ⟨hRst, hFree, hValid, hDecode⟩, hi⟩
  · exact absurd illegal hne
  · exact absurd idle hne

/-- `PERR` changes in the host's act only to 0, by an accepted `FLUSH` or `BEGIN`. -/
theorem hostAct_perr (hRst : io.rst = false) (h : hostAct io s = .next t) (hne : t.perr ≠ s.perr) :
    t.perr = false ∧ (accepts io s .flush ∨ accepts io s .beginRx) := by
  obtain ⟨i, hAcc, hi⟩ := accepts_of_hostAct_ne State.perr hRst h hne
  obtain ⟨hp, rfl | rfl⟩ := (exec_perr hi).resolve_left hne
  · exact ⟨hp, .inl hAcc⟩
  · exact ⟨hp, .inr hAcc⟩

/-- `OVF` changes in the host's act only to 0, by an accepted `READ` or `FLUSH`. -/
theorem hostAct_ovf (hRst : io.rst = false) (h : hostAct io s = .next t) (hne : t.ovf ≠ s.ovf) :
    t.ovf = false ∧ (accepts io s .read ∨ accepts io s .flush) := by
  obtain ⟨i, hAcc, hi⟩ := accepts_of_hostAct_ne State.ovf hRst h hne
  obtain ⟨ho, rfl | rfl⟩ := (exec_ovf hi).resolve_left hne
  · exact ⟨ho, .inl hAcc⟩
  · exact ⟨ho, .inr hAcc⟩

/-! ### The decoder's act -/

/-- The package of a property over the operations the decoder's act is made of: what each of them keeps, the act keeps. The default of a premise
says that the operation writes nothing the property reads. -/
theorem decoderAct_keeps {P : State → Prop} (h : decoderAct rx s = .next t) (hs : P s)
    (refuseEdge : ∀ u, P u → P u.refuseEdge := by exact fun _ hu => hu)
    (startDecode : ∀ u, P u → P u.startDecode := by exact fun _ hu => hu)
    (latchEdge : ∀ u, P u → P (u.latchEdge rx) := by exact fun _ hu => hu)
    (decoding : ∀ u c w p st, P u → P (u.decoding c w p st) := by exact fun _ _ _ _ _ hu => hu)
    (endDecode : ∀ u, P u → P u.endDecode := by exact fun _ hu => hu)
    (fail : ∀ u, P u → P u.fail := by exact fun _ hu => hu)
    (overflow : ∀ u, P u → P u.overflow := by exact fun _ hu => hu)
    (push : ∀ u v, u.head < u.cfg.n → u.tail < u.cfg.n → advanceIndex u u.tail 1 ≠ u.head → P u → P (u.push v) := by
      exact fun _ _ _ _ _ hu => hu) : P t := by
  rcases decoderAct_cases h with ⟨-, rfl | rfl | ⟨rfl, -⟩⟩ | ⟨c, w, p, st, -, rfl | rfl | ⟨v, u, hu, rfl⟩ | ⟨w', p', st', rfl, -⟩⟩
  · exact hs
  · exact refuseEdge _ hs
  · exact startDecode _ hs
  · exact endDecode _ (latchEdge _ hs)
  · exact endDecode _ (fail _ (latchEdge _ hs))
  · refine endDecode _ ?_
    obtain ⟨hHead, ⟨-, rfl⟩ | ⟨hFull, hTail, rfl⟩⟩ := enqueue_cases hu
    · exact overflow _ (latchEdge _ hs)
    · exact push _ _ hHead hTail hFull (latchEdge _ hs)
  · exact decoding _ _ _ _ _ (latchEdge _ hs)

/-- `u` has the host's registers, the ports, the configuration and the model's own fields of `s`: what the decoder never writes (10_state.md
R61). -/
def State.AgreesOffDecoder (s u : State) : Prop :=
  u.head = s.head ∧ u.rsp = s.rsp ∧ u.txData = s.txData ∧ u.rxPull = s.rxPull ∧ u.hrem = s.hrem ∧ u.wsegs = s.wsegs ∧
    u.wpos = s.wpos ∧ u.cmdReady = s.cmdReady ∧ u.rspValid = s.rspValid ∧ u.diagValid = s.diagValid ∧
    u.diagCode = s.diagCode ∧ u.cfg = s.cfg ∧ u.faultMark = s.faultMark ∧ u.rxPrev = s.rxPrev ∧
    u.inputs = s.inputs ∧ u.tick = s.tick

/-- The decoder's act writes nothing that is not the decoder's. -/
theorem decoderAct_agreesOffDecoder (h : decoderAct rx s = .next t) : s.AgreesOffDecoder t :=
  decoderAct_keeps (P := s.AgreesOffDecoder) h
    ⟨rfl, rfl, rfl, rfl, rfl, rfl, rfl, rfl, rfl, rfl, rfl, rfl, rfl, rfl, rfl, rfl⟩

/-- No act of the decoder writes `HREM`. -/
theorem decoderAct_hrem (h : decoderAct rx s = .next t) : t.hrem = s.hrem :=
  decoderAct_keeps (P := fun u => u.hrem = s.hrem) h rfl

/-- A store into a buffer that is not full moves `TAIL`, in a buffer of one slot too. -/
theorem push_tail_ne {v : Slot} (hHead : s.head < s.cfg.n) (hTail : s.tail < s.cfg.n)
    (hFull : advanceIndex s s.tail 1 ≠ s.head) : (s.push v).tail ≠ s.tail := by
  simp only [State.push_tail, advanceIndex] at hFull ⊢
  intro hSame
  rcases Nat.lt_or_ge (s.tail + 1) s.cfg.n with hLt | hGe
  · rw [Nat.mod_eq_of_lt hLt] at hSame
    omega
  · have hEnd : s.tail + 1 = s.cfg.n := by omega
    rw [hEnd, Nat.mod_self] at hSame hFull
    omega

/-- The decoder's act leaves the storage and `TAIL`, or writes the slot at `TAIL` and moves `TAIL` on by one (10_state.md R61). -/
theorem decoderAct_store (h : decoderAct rx s = .next t) :
    (t.buf = s.buf ∧ t.tail = s.tail) ∨
      (t.tail ≠ s.tail ∧ t.tail = advanceIndex s s.tail 1 ∧ ∃ v, t.buf = slotPut s.buf s.tail v) := by
  rcases decoderAct_cases h with ⟨-, rfl | rfl | ⟨rfl, -⟩⟩ | ⟨c, w, p, st, -, rfl | rfl | ⟨v, u, hu, rfl⟩ | ⟨w', p', st', rfl, -⟩⟩
  case inr.inr.inr.inl =>
    obtain ⟨hHead, ⟨-, rfl⟩ | ⟨hFull, hTail, rfl⟩⟩ := enqueue_cases hu
    · exact .inl ⟨rfl, rfl⟩
    · exact .inr ⟨push_tail_ne (v := v) hHead hTail hFull, rfl, v, rfl⟩
  all_goals exact .inl ⟨rfl, rfl⟩

/-- The decoder's act only sets the flags. -/
theorem decoderAct_sets_flags (h : decoderAct rx s = .next t) :
    (s.ovf = true → t.ovf = true) ∧ (s.perr = true → t.perr = true) :=
  decoderAct_keeps (P := fun u => (s.ovf = true → u.ovf = true) ∧ (s.perr = true → u.perr = true)) h ⟨id, id⟩
    (fail := fun _ hu => ⟨hu.1, fun _ => rfl⟩) (overflow := fun _ hu => ⟨fun _ => rfl, hu.2⟩)

/-- The decoder's act leaves the line-state registers, or it is the forced disable (42_receive.md R189, R190). -/
theorem decoderAct_lineRegisters (h : decoderAct rx s = .next t) :
    (t.lineState = s.lineState ∧ t.armed = s.armed ∧ t.txEn = s.txEn ∧ t.rxEn = s.rxEn) ∨
      (t.lineState = .disabled ∧ t.armed = false ∧ t.perr = true) :=
  decoderAct_keeps
    (P := fun u => (u.lineState = s.lineState ∧ u.armed = s.armed ∧ u.txEn = s.txEn ∧ u.rxEn = s.rxEn) ∨
      (u.lineState = .disabled ∧ u.armed = false ∧ u.perr = true))
    h (.inl ⟨rfl, rfl, rfl, rfl⟩) (fail := fun _ _ => .inr ⟨rfl, rfl, rfl⟩)

/-! ### A tick without reset -/

/-- A step in a tick without reset is the two agents' acts and the end of the tick. -/
theorem step_without_reset (h : step s = .next t) (hRst : s.currentIn.rst = false) :
    ∃ u, agentsAct s.currentIn s.advance.beginTick = .next u ∧ t = u.endTick s.currentIn.rxData := by
  rcases tickWith_cases (step_cases h).2.2 with ⟨hOn, -⟩ | ⟨-, hActs⟩
  · rw [hRst] at hOn
    cases hOn
  · exact hActs

/-- The package of a property over two acts: what each keeps where it runs, and a fault mark, both keep. -/
theorem bothActs_keeps {P : State → Prop} {a b : State → Result} (h : bothActs a b s = .next t) (hs : P s)
    (fault : ∀ u f, P u → P (u.raiseFault f)) (first : ∀ u, a s = .next u → P u)
    (second : ∀ u v, a s = .next u → b u = .next v → P v) : P t := by
  rcases bothActs_cases h with ⟨f, -, rfl⟩ | ⟨u, hu, ⟨f, -, rfl⟩ | hv⟩
  · exact fault _ _ hs
  · exact fault _ _ (first u hu)
  · exact second u t hu hv

/-- The package of a property over a tick without reset, faulting ticks included, where the host's act is known to run with the tick's inputs on
the port's occupation at the tick's start: what that act and the decoder's keep from the tick's start on, the tick keeps. -/
theorem step_keeps_without_reset {P : State → Prop} (h : step s = .next t) (hRst : s.currentIn.rst = false)
    (hs : P s.advance.beginTick)
    (host : ∀ u v, u.hrem = s.hrem → P u → hostAct s.currentIn u = .next v → P v)
    (decoder : ∀ u v, P u → decoderAct s.currentIn.rxData u = .next v → P v)
    (fault : ∀ u f, P u → P (u.raiseFault f) := by exact fun _ _ hu => hu)
    (endTick : ∀ u rx, P u → P (u.endTick rx) := by exact fun _ _ hu => hu) : P t := by
  obtain ⟨v, hv, rfl⟩ := step_without_reset h hRst
  have hPort : s.advance.beginTick.hrem = s.hrem := rfl
  refine endTick _ _ ?_
  unfold agentsAct at hv
  split at hv
  · exact bothActs_keeps hv hs fault (fun u hu => host _ u hPort hs hu)
      (fun u w hu hw => decoder u w (host _ u hPort hs hu) hw)
  · exact bothActs_keeps hv hs fault (fun u hu => decoder _ u hs hu)
      (fun u w hu hw => host u w ((decoderAct_hrem hu).trans hPort) (decoder _ u hs hu) hw)

end Sys2Proof.Machine
end

section
/-!
PROOFS. The invariants of the state (10_state.md; 40_line_state.md R142; 41_transmit.md R160; 42_receive.md R195): they hold at reset, each agent's
act keeps them, and so does every step.
-/

namespace Sys2Proof.Machine

variable {i : Instr} {io : TickIn} {rx : Level} {s t : State}

/-! ### At reset -/

/-- The reset state's buffer is empty, so it has no unwritten live slot. -/
theorem reset_contents : State.reset.contents = [] := rfl

/-- Settles O14: a check of the reset state's fields. -/
theorem invariantsHoldAtReset : Obligations.InvariantsHoldAtReset := by
  unfold Obligations.InvariantsHoldAtReset
  have hBuffer : State.reset.BufferInv := ⟨reset_storage_wf, by decide, fun _ => by decide⟩
  have hLine : State.reset.LineInv := by decide
  have hWave : State.reset.WaveInv := ⟨fun _ => rfl, fun h => absurd rfl h⟩
  have hDecoder : State.reset.DecoderInv := ⟨trivial, fun _ => rfl⟩
  have hLive : State.reset.LiveWritten := by simp [State.LiveWritten, reset_contents]
  exact ⟨by decide, hBuffer, hLine, hWave, hDecoder, rfl, hLive⟩

/-! ### The buffer -/

/-- An index advanced modulo `N` is below `N`. -/
theorem advanceIndex_lt {j : Nat} (k : Nat) (h : j < s.cfg.n) : advanceIndex s j k < s.cfg.n :=
  Nat.mod_lt _ (Nat.zero_lt_of_lt h)

/-- A position given up for 0 keeps the buffer's invariant, in any storage of canonical form. -/
theorem bufferInv_of_zero (hBuf : s.buf.wf s.cfg.n) (hN : 0 < s.cfg.n) (hTail : s.tail = 0) (hHead : s.head = 0) :
    s.BufferInv :=
  ⟨hBuf, hTail ▸ hN, fun _ => hHead ▸ hN⟩

theorem resetBlock_bufferInv (hs : s.BufferInv) : s.resetBlock.BufferInv :=
  bufferInv_of_zero (storage_nil_wf _) (Nat.zero_lt_of_lt hs.2.1) rfl rfl

theorem emptyBuffer_bufferInv (hs : s.BufferInv) : s.emptyBuffer.BufferInv :=
  bufferInv_of_zero hs.1 (Nat.zero_lt_of_lt hs.2.1) rfl rfl

theorem pop_bufferInv (hs : s.BufferInv) : s.pop.BufferInv := by
  obtain ⟨hBuf, hTail, hHead⟩ := hs
  exact ⟨hBuf, hTail, fun hWrap => advanceIndex_lt 1 (hHead hWrap)⟩

theorem advanceHead_bufferInv (k : Nat) (hs : s.BufferInv) : (s.advanceHead k).BufferInv := by
  obtain ⟨hBuf, hTail, hHead⟩ := hs
  refine ⟨hBuf, hTail, fun hWrap => ?_⟩
  have hWrap' : s.cfg.advanceHeadWrap = true := hWrap
  simpa [hWrap'] using advanceIndex_lt k (hHead hWrap)

theorem push_bufferInv (v : Slot) (hs : s.BufferInv) : (s.push v).BufferInv := by
  obtain ⟨hBuf, hTail, hHead⟩ := hs
  exact ⟨slotPut_wf hBuf hTail, advanceIndex_lt 1 hTail, hHead⟩

theorem exec_bufferInv (h : exec i s = .next t) (hs : s.BufferInv) : t.BufferInv :=
  exec_keeps (P := State.BufferInv) h hs (pop := fun _ _ => pop_bufferInv) (emptyBuffer := fun _ _ => emptyBuffer_bufferInv)
    (advanceHead := fun _ _ k => advanceHead_bufferInv k)

theorem hostAct_bufferInv (h : hostAct io s = .next t) (hs : s.BufferInv) : t.BufferInv :=
  hostAct_keeps (P := State.BufferInv) h hs (fun _ hu => hu) (fun _ _ hu => hu) (fun _ _ hu => hu)
    (fun _ _ _ _ hu hv => exec_bufferInv hv hu)

theorem decoderAct_bufferInv (h : decoderAct rx s = .next t) (hs : s.BufferInv) : t.BufferInv :=
  decoderAct_keeps (P := State.BufferInv) h hs (push := fun _ v _ _ _ => push_bufferInv v)

theorem step_bufferInv (h : step s = .next t) (hs : s.BufferInv) : t.BufferInv :=
  step_keeps (P := State.BufferInv) h hs (fun _ hu => hu) (fun _ hu => hu) (fun _ _ hu => hu) (fun _ => resetBlock_bufferInv)
    (fun _ _ hu => hu) (fun _ _ _ hu hv => hostAct_bufferInv hv hu) (fun _ _ _ hu hv => decoderAct_bufferInv hv hu)

/-- Settles O15: the decoder's store is at `TAIL` below `N`, and every index written is taken modulo `N` or 0. -/
theorem stepKeepsBufferInv : Obligations.StepKeepsBufferInv := by
  unfold Obligations.StepKeepsBufferInv
  intro s t hs h
  exact step_bufferInv h hs

/-! ### The line state -/

/-- `SetState` writes all the registers the line state fixes (40_line_state.md R141, R142). -/
theorem setState_lineInv (ls : LineState) (hs : s.LineInv) : (s.setState ls).LineInv := by
  obtain ⟨-, -, -, -, hPull, hDown⟩ := hs
  cases ls with
  | disabled => exact ⟨rfl, rfl, by simp, fun _ => rfl, by simp, hDown⟩
  | interruptEnabled => exact ⟨rfl, rfl, fun _ => rfl, by simp, fun _ => rfl, by simp⟩
  | holding | transmitting | listening => exact ⟨rfl, rfl, by simp, by simp, hPull, hDown⟩

theorem resetBlock_lineInv (s : State) : s.resetBlock.LineInv := by
  refine ⟨rfl, rfl, ?_, fun _ => rfl, ?_, ?_⟩ <;> simp

theorem exec_lineInv (h : exec i s = .next t) (hs : s.LineInv) : t.LineInv :=
  exec_keeps (P := State.LineInv) h hs (setState := fun ls _ _ => setState_lineInv ls)

theorem hostAct_lineInv (h : hostAct io s = .next t) (hs : s.LineInv) : t.LineInv :=
  hostAct_keeps (P := State.LineInv) h hs (fun _ hu => hu) (fun _ _ hu => hu) (fun _ _ hu => hu)
    (fun _ _ _ _ hu hv => exec_lineInv hv hu)

/-- Of the decoder's operations only the forced disable writes the line state, and it is a `SetState` (42_receive.md R190). -/
theorem decoderAct_lineInv (h : decoderAct rx s = .next t) (hs : s.LineInv) : t.LineInv :=
  decoderAct_keeps (P := State.LineInv) h hs (fail := fun _ => setState_lineInv .disabled)

theorem step_lineInv (h : step s = .next t) (hs : s.LineInv) : t.LineInv :=
  step_keeps (P := State.LineInv) h hs (fun _ hu => hu) (fun _ hu => hu) (fun _ _ hu => hu) (fun u _ => resetBlock_lineInv u)
    (fun _ _ hu => hu) (fun _ _ _ hu hv => hostAct_lineInv hv hu) (fun _ _ _ hu hv => decoderAct_lineInv hv hu)

/-- Settles O16: every write of a line-state register is a `SetState` or the reset action. -/
theorem stepKeepsLineInv : Obligations.StepKeepsLineInv := by
  unfold Obligations.StepKeepsLineInv
  intro s t hs h
  exact step_lineInv h hs

/-! ### The waveform -/

/-- The checks of R23 that bound a waveform from below. -/
theorem wellFormed_wave {c : Cfg} (h : c.wellFormed = true) : 1 ≤ c.tBreak ∧ 1 ≤ c.tMark ∧ 1 ≤ c.tBitTx := by
  obtain ⟨-, hBreak, hMark, hBit, -⟩ := (illFormedConfigurationIsRefused.1 c).1 h
  exact ⟨hBreak, hMark, hBit⟩

/-- A free port plays no waveform, and its position is 0. -/
theorem waveInv_free (hs : s.WaveInv) (hFree : s.hrem = 0) : s.wsegs = [] ∧ s.wpos = 0 := by
  have hNil : s.wsegs = [] := by
    by_contra hPlays
    have := (hs.2 hPlays).1
    omega
  exact ⟨hNil, hs.1 hNil⟩

/-- Where no waveform plays and the position is 0, nothing else is asked. -/
theorem waveInv_of_silent (h : s.wsegs = [] ∧ s.wpos = 0) : s.WaveInv := ⟨fun _ => h.2, fun hPlays => absurd h.1 hPlays⟩

/-- The next level of a waveform that plays, at a busy tick (41_transmit.md R160). -/
theorem continueCommand_waveLevel (hs : s.WaveInv) (hPlays : s.wsegs ≠ []) :
    waveLevel s.wsegs (s.wpos + 1) = some s.continueCommand.txData := by
  obtain ⟨hBusy, hLeft, -⟩ := hs.2 hPlays
  rw [State.continueCommand_txData, if_neg hPlays]
  exact waveLevel_eq_driven _ (by omega)

/-- A busy tick ends the waveform with the port's last tick, or brings both one tick nearer the end. -/
theorem continueCommand_waveInv (hs : s.WaveInv) : s.continueCommand.WaveInv := by
  by_cases hLast : s.hrem - 1 = 0
  · refine waveInv_of_silent ⟨by simp [hLast], ?_⟩
    by_cases hPlays : s.wsegs = []
    · simp [hPlays, hs.1 hPlays]
    · simp [hPlays, hLast]
  · have hSame : s.continueCommand.wsegs = s.wsegs := by simp [hLast]
    by_cases hPlays : s.wsegs = []
    · exact waveInv_of_silent ⟨hSame.trans hPlays, by simp [hPlays, hs.1 hPlays]⟩
    · obtain ⟨hBusy, hLeft, -⟩ := hs.2 hPlays
      have hPos : s.continueCommand.wpos = s.wpos + 1 := by simp [hPlays, hLast]
      refine ⟨fun hNil => absurd (hSame.symm.trans hNil) hPlays, fun _ => ⟨?_, ?_, ?_⟩⟩
      · rw [State.continueCommand_hrem]
        omega
      · rw [hSame, hPos, State.continueCommand_hrem]
        omega
      · rw [hSame, hPos]
        exact continueCommand_waveLevel hs hPlays

/-- A waveform of at least two ticks, started with the port taken for all of them. -/
theorem startWave_waveInv {segs : List Segment} (h : 2 ≤ waveTicks segs) :
    ((s.startWave segs).occupy (waveTicks segs)).WaveInv := by
  have hNil : segs ≠ [] := by
    rintro rfl
    simp [waveTicks] at h
  refine ⟨fun h' => absurd h' hNil, fun _ => ⟨?_, ?_, waveLevel_eq_driven (segs := segs) (j := 0) _ (by omega)⟩⟩
  · rw [State.occupy_hrem]
    omega
  · simp only [State.occupy_hrem, State.occupy_wpos, State.occupy_wsegs, State.startWave_wpos, State.startWave_wsegs]
    omega

/-- A command leaves the free port's silence, or starts one of the two waveforms. -/
theorem exec_wave (h : exec i s = .next t) :
    (t.wsegs = s.wsegs ∧ t.wpos = s.wpos) ∨
      ∃ u : State, ∃ segs, (segs = wakeSegs s.cfg ∨ ∃ b, segs = frameSegs s.cfg b) ∧
        t = (u.startWave segs).occupy (waveTicks segs) := by
  obtain ⟨d, hd⟩ := exec_cases h
  rcases hd with ⟨rfl, -⟩ | ⟨ls, rfl, -⟩ | ⟨rfl, -⟩ | ⟨rfl, rfl, -⟩ | ⟨b, rfl, rfl, -⟩ | ⟨v, rfl, -⟩ | ⟨v, -, -, rfl, -⟩ |
    ⟨rfl, -⟩ | ⟨n, rfl, -⟩
  case inr.inr.inr.inl => exact .inr ⟨s.setState .transmitting, _, .inl rfl, by rw [waveTicks_wakeSegs]⟩
  case inr.inr.inr.inr.inl => exact .inr ⟨s, _, .inr ⟨b, rfl⟩, by rw [waveTicks_frameSegs]⟩
  all_goals exact .inl ⟨rfl, rfl⟩

/-- Both waveforms last at least two ticks in a well-formed block. -/
theorem two_le_waveTicks {c : Cfg} {segs : List Segment} (hc : c.wellFormed = true)
    (h : segs = wakeSegs c ∨ ∃ b, segs = frameSegs c b) : 2 ≤ waveTicks segs := by
  obtain ⟨hBreak, hMark, hBit⟩ := wellFormed_wave hc
  rcases h with rfl | ⟨b, rfl⟩
  · rw [waveTicks_wakeSegs, wakeTicks]
    omega
  · rw [waveTicks_frameSegs, frameTicks]
    omega

/-- A command runs on a free port only. -/
theorem exec_waveInv (hc : s.cfg.wellFormed = true) (hFree : s.hrem = 0) (h : exec i s = .next t) (hs : s.WaveInv) :
    t.WaveInv := by
  obtain ⟨hNil, hPos⟩ := waveInv_free hs hFree
  rcases exec_wave h with ⟨hSegs, hWpos⟩ | ⟨u, segs, hKind, rfl⟩
  · exact waveInv_of_silent ⟨hSegs.trans hNil, hWpos.trans hPos⟩
  · exact startWave_waveInv (two_le_waveTicks hc hKind)

theorem hostAct_waveInv (hc : s.cfg.wellFormed = true) (h : hostAct io s = .next t) (hs : s.WaveInv) : t.WaveInv := by
  rcases hostAct_cases h with ⟨-, rfl⟩ | ⟨hFree, -, i, -, hi⟩ | ⟨hFree, -, -, rfl⟩ | ⟨-, -, rfl⟩
  · exact continueCommand_waveInv (s := s.clearPulses) hs
  · exact exec_waveInv (s := s.clearPulses) hc hFree hi hs
  · exact waveInv_of_silent (waveInv_free (s := s) hs hFree)
  · exact hs

/-- The decoder writes neither the host's sequencer nor the pin. -/
theorem decoderAct_waveInv (h : decoderAct rx s = .next t) (hs : s.WaveInv) : t.WaveInv :=
  decoderAct_keeps (P := State.WaveInv) h hs

theorem step_waveInv (h : step s = .next t) (hs : s.WaveInv) : t.WaveInv :=
  step_keeps_cfg (P := State.WaveInv) h hs (fun _ hu => hu) (fun _ hu => hu) (fun _ _ hu => hu)
    (fun _ _ _ => waveInv_of_silent ⟨rfl, rfl⟩) (fun _ _ hu => hu) (fun _ _ _ hc hu hv => hostAct_waveInv hc hv hu)
    (fun _ _ _ _ hu hv => decoderAct_waveInv hv hu)

/-- Settles O17: a busy tick moves the waveform and the port together, and a command finds the port silent. -/
theorem stepKeepsWaveInv : Obligations.StepKeepsWaveInv := by
  unfold Obligations.StepKeepsWaveInv
  intro s t hs h
  exact step_waveInv h hs

/-! ### The decoder -/

/-- In a well-formed block the stop sample is after the first offset and not after the last. -/
theorem instStop_bounds {c : Cfg} (hc : c.wellFormed = true) : 0 < instStop c ∧ instStop c ≤ instDone c := by
  obtain ⟨-, -, -, -, hResample, -⟩ := (illFormedConfigurationIsRefused.1 c).1 hc
  constructor
  · simp only [instStop, instData]
    omega
  · unfold instDone
    cases c.parityMode with
    | gated => exact Nat.le_max_left _ _
    | unconditional => exact Nat.le_refl _

/-- An idle decoder has only its pending edge to answer for. -/
theorem decoderInv_of_idle (hIdle : s.dseq = .idle) (hEdge : s.cfg.edgeLatch = false → s.edgePend = false) : s.DecoderInv := by
  refine ⟨?_, hEdge⟩
  rw [hIdle]
  trivial

theorem decoderInv_busy_iff {c : Nat} {w : Slot} {p st : Level} (hBusy : s.dseq = .busy c w p st) :
    s.DecoderInv ↔ (c < instDone s.cfg ∧ (st = .high ↔ instStop s.cfg ≤ c)) ∧ (s.cfg.edgeLatch = false → s.edgePend = false) := by
  unfold State.DecoderInv
  rw [hBusy]

/-- An edge is latched only where `EDGE_LATCH` says so (42_receive.md R193). -/
theorem latchEdge_edgePend (hs : s.DecoderInv) (hLatch : s.cfg.edgeLatch = false) : (s.latchEdge rx).edgePend = false := by
  simp [hs.2 hLatch, hLatch]

/-- The decoder's next offset: still before the last, with the stop sample taken at `s_S`, where it is `HIGH` (42_receive.md R186). -/
theorem decoding_decoderInv {c : Nat} {w w' : Slot} {p p' st st' : Level} (hs : s.DecoderInv) (hBusy : s.dseq = .busy c w p st)
    (hLast : c + 1 ≠ instDone s.cfg) (hStop : st' = if c + 1 = instStop s.cfg then rx else st)
    (hHigh : c + 1 = instStop s.cfg → rx = .high) : ((s.latchEdge rx).decoding (c + 1) w' p' st').DecoderInv := by
  obtain ⟨⟨hBefore, hSample⟩, -⟩ := (decoderInv_busy_iff hBusy).1 hs
  refine ⟨⟨?_, ?_⟩, latchEdge_edgePend hs⟩
  · show c + 1 < instDone s.cfg
    omega
  · show st' = .high ↔ instStop s.cfg ≤ c + 1
    by_cases hAt : c + 1 = instStop s.cfg
    · simp [hStop, hAt, hHigh hAt]
    · rw [hStop, if_neg hAt, hSample]
      omega

theorem decoderAct_decoderInv (hc : s.cfg.wellFormed = true) (h : decoderAct rx s = .next t) (hs : s.DecoderInv) :
    t.DecoderInv := by
  rcases decoderAct_cases h with ⟨hIdle, rfl | rfl | ⟨rfl, -⟩⟩ |
    ⟨c, w, p, st, hBusy, rfl | rfl | ⟨v, u, hu, rfl⟩ | ⟨w', p', st', rfl, hLast, hStop, hHigh⟩⟩
  · exact hs
  · exact decoderInv_of_idle hIdle fun _ => rfl
  · obtain ⟨hAfterFirst, hBeforeLast⟩ := instStop_bounds hc
    refine (decoderInv_busy_iff rfl).2 ⟨⟨?_, ?_⟩, fun _ => rfl⟩
    · exact Nat.lt_of_lt_of_le hAfterFirst hBeforeLast
    · simpa using hAfterFirst.ne'
  · exact decoderInv_of_idle rfl (latchEdge_edgePend hs)
  · exact decoderInv_of_idle rfl (latchEdge_edgePend hs)
  · obtain ⟨-, ⟨-, rfl⟩ | ⟨-, -, rfl⟩⟩ := enqueue_cases hu
    · exact decoderInv_of_idle rfl (latchEdge_edgePend hs)
    · exact decoderInv_of_idle rfl (latchEdge_edgePend hs)
  · exact decoding_decoderInv hs hBusy hLast hStop hHigh

/-- The decoder's sequencer is none of the host's. -/
theorem hostAct_decoderInv (h : hostAct io s = .next t) (hs : s.DecoderInv) : t.DecoderInv := by
  obtain ⟨-, hSeq, hEdge, -, hCfg, -⟩ := hostAct_agreesOffHost h
  unfold State.DecoderInv
  rw [hSeq, hEdge, hCfg]
  exact hs

theorem step_decoderInv (h : step s = .next t) (hs : s.DecoderInv) : t.DecoderInv :=
  step_keeps_cfg (P := State.DecoderInv) h hs (fun _ hu => hu) (fun _ hu => hu) (fun _ _ hu => hu)
    (fun _ _ _ => decoderInv_of_idle rfl fun _ => rfl) (fun _ _ hu => hu) (fun _ _ _ _ hu hv => hostAct_decoderInv hv hu)
    (fun _ _ _ hc hu hv => decoderAct_decoderInv hc hv hu)

/-- Settles O18: a decode enters at offset 0 with a `LOW` stop sample, and each tick ends it or takes it one offset on. -/
theorem stepKeepsDecoderInv : Obligations.StepKeepsDecoderInv := by
  unfold Obligations.StepKeepsDecoderInv
  intro s t hs h
  exact step_decoderInv h hs

end Sys2Proof.Machine
end

section
/-!
PROOFS. Who may write what (10_state.md R61; 43_buffer.md R223), and that the error flags are sticky (10_state.md R50, R51).
-/

namespace Sys2Proof.Machine

variable {i : Instr} {io : TickIn} {rx : Level} {s t : State}

/-- The commands that set a line state (40_line_state.md R140). -/
theorem stateSetBy_eq_some {ls : LineState} (h : stateSetBy i = some ls) :
    i = .beginRx ∨ i = .endRx ∨ i = .hold ∨ i = .wake ∨ ∃ c, i = .setSt c ∧ c.toNat ≤ 4 := by
  cases i with
  | setSt c => exact .inr (.inr (.inr (.inr ⟨c, rfl, stateOfCode_some_le h⟩)))
  | beginRx | endRx | hold | wake => simp
  | wChar b | avail | peek | read | endLf | endCr | flush | advH n | hasOvf | hasPe => cases h

/-- The commands that set Holding. -/
theorem stateSetBy_eq_holding (h : stateSetBy i = some .holding) : i = .hold ∨ i = .setSt 1#8 := by
  cases i with
  | setSt c => exact .inr (congrArg _ (stateOfCode_eq_some_iff.1 h))
  | hold => exact .inl rfl
  | beginRx | endRx | wake | wChar b | avail | peek | read | endLf | endCr | flush | advH n | hasOvf | hasPe => cases h

/-- The commands that set InterruptEnabled. -/
theorem stateSetBy_eq_interruptEnabled (h : stateSetBy i = some .interruptEnabled) : i = .beginRx ∨ i = .setSt 4#8 := by
  cases i with
  | setSt c => exact .inr (congrArg _ (stateOfCode_eq_some_iff.1 h))
  | beginRx => exact .inl rfl
  | endRx | hold | wake | wChar b | avail | peek | read | endLf | endCr | flush | advH n | hasOvf | hasPe => cases h

/-! ### The host -/

theorem hostAct_tail (hRst : io.rst = false) (h : hostAct io s = .next t) (hne : t.tail ≠ s.tail) :
    t.tail = 0 ∧ accepts io s .flush := by
  obtain ⟨i, hAcc, hi⟩ := accepts_of_hostAct_ne State.tail hRst h hne
  obtain ⟨hZero, rfl⟩ := (exec_tail hi).resolve_left hne
  exact ⟨hZero, hAcc⟩

theorem hostAct_head (hRst : io.rst = false) (h : hostAct io s = .next t) (hne : t.head ≠ s.head) :
    accepts io s .read ∨ accepts io s .flush ∨ ∃ n, accepts io s (.advH n) := by
  obtain ⟨i, hAcc, hi⟩ := accepts_of_hostAct_ne State.head hRst h hne
  obtain rfl | rfl | ⟨n, rfl⟩ := (exec_head hi).resolve_left hne
  · exact .inl hAcc
  · exact .inr (.inl hAcc)
  · exact .inr (.inr ⟨n, hAcc⟩)

/-- The registers that `SetState` fixes by the line state: `LINE_STATE`, `ARMED` and the two enables. -/
def State.lineRegisters (s : State) : LineState × Bool × Bool × Bool := (s.lineState, s.armed, s.txEn, s.rxEn)

theorem lineRegisters_ne (h : t.lineState ≠ s.lineState ∨ t.armed ≠ s.armed ∨ t.txEn ≠ s.txEn ∨ t.rxEn ≠ s.rxEn) :
    t.lineRegisters ≠ s.lineRegisters := by
  intro hSame
  simp only [State.lineRegisters, Prod.mk.injEq] at hSame
  tauto

theorem hostAct_lineRegisters (hRst : io.rst = false) (h : hostAct io s = .next t)
    (hne : t.lineState ≠ s.lineState ∨ t.armed ≠ s.armed ∨ t.txEn ≠ s.txEn ∨ t.rxEn ≠ s.rxEn) :
    accepts io s .beginRx ∨ accepts io s .endRx ∨ accepts io s .hold ∨ accepts io s .wake ∨
      ∃ c, accepts io s (.setSt c) ∧ c.toNat ≤ 4 := by
  obtain ⟨i, hAcc, hi⟩ := accepts_of_hostAct_ne State.lineRegisters hRst h (lineRegisters_ne hne)
  obtain ⟨ls, hSet⟩ := (exec_lineRegisters hi).resolve_left (by tauto)
  rcases stateSetBy_eq_some hSet with rfl | rfl | rfl | rfl | ⟨c, rfl, hc⟩
  · exact .inl hAcc
  · exact .inr (.inl hAcc)
  · exact .inr (.inr (.inl hAcc))
  · exact .inr (.inr (.inr (.inl hAcc)))
  · exact .inr (.inr (.inr (.inr ⟨c, hAcc, hc⟩)))

theorem hostAct_rxPull (hRst : io.rst = false) (h : hostAct io s = .next t) (hne : t.rxPull ≠ s.rxPull) :
    t.rxPull = .up ∧ (accepts io s .beginRx ∨ accepts io s (.setSt 4#8)) := by
  obtain ⟨i, hAcc, hi⟩ := accepts_of_hostAct_ne State.rxPull hRst h hne
  obtain ⟨hUp, hSet⟩ := (exec_rxPull hi).resolve_left hne
  rcases stateSetBy_eq_interruptEnabled hSet with rfl | rfl
  · exact ⟨hUp, .inl hAcc⟩
  · exact ⟨hUp, .inr hAcc⟩

theorem hostAct_txData (hRst : io.rst = false) (h : hostAct io s = .next t) (hne : t.txData ≠ s.txData) :
    (0 < s.hrem ∧ s.wsegs ≠ []) ∨ accepts io s .wake ∨ (∃ b, accepts io s (.wChar b)) ∨ accepts io s .beginRx ∨
      accepts io s .hold ∨ accepts io s (.setSt 1#8) ∨ accepts io s (.setSt 4#8) := by
  by_cases hPlays : 0 < s.hrem ∧ s.wsegs ≠ []
  · exact .inl hPlays
  · have hSilent : 0 < s.hrem → s.clearPulses.continueCommand.txData = s.txData := by
      intro hBusy
      have hNil : s.wsegs = [] := by tauto
      simp [hNil]
    obtain ⟨i, hAcc, hi⟩ := accepts_of_hostAct_ne State.txData hRst h hne hSilent
    right
    rcases (exec_txData hi).resolve_left hne with (rfl | ⟨b, rfl⟩) | hSet | hSet
    · exact .inl hAcc
    · exact .inr (.inl ⟨b, hAcc⟩)
    · rcases stateSetBy_eq_holding hSet with rfl | rfl
      · exact .inr (.inr (.inr (.inl hAcc)))
      · exact .inr (.inr (.inr (.inr (.inl hAcc))))
    · rcases stateSetBy_eq_interruptEnabled hSet with rfl | rfl
      · exact .inr (.inr (.inl hAcc))
      · exact .inr (.inr (.inr (.inr (.inr hAcc))))

theorem hostAct_rsp (hRst : io.rst = false) (h : hostAct io s = .next t) (hne : t.rsp ≠ s.rsp) :
    ∃ i ∈ queryCommands, accepts io s i := by
  obtain ⟨i, hAcc, hi⟩ := accepts_of_hostAct_ne State.rsp hRst h hne
  exact ⟨i, (exec_rsp hi).resolve_left hne, hAcc⟩

/-- Settles O20: each register's rule from the one operation that writes it and the commands that run that operation. -/
theorem hostAccessRights : Obligations.HostAccessRights := by
  unfold Obligations.HostAccessRights
  intro io s t hRst h
  obtain ⟨hBuf, hSeq, hEdge, hPrev, hCfg, hFault, hInputs, hTick⟩ := hostAct_agreesOffHost h
  exact ⟨fun a => by rw [hBuf], hSeq, hEdge, hPrev, hCfg, hFault, hInputs, hTick, hostAct_tail hRst h, hostAct_head hRst h,
    hostAct_ovf hRst h, hostAct_perr hRst h, hostAct_lineRegisters hRst h, hostAct_rxPull hRst h, hostAct_txData hRst h,
    hostAct_rsp hRst h⟩

/-! ### The decoder -/

/-- A slot other than the one at `TAIL` is none of the decoder's. -/
theorem decoderAct_slotAt (h : decoderAct rx s = .next t) {a : Nat} (ha : a ≠ s.tail) : slotAt t.buf a = slotAt s.buf a := by
  rcases decoderAct_store h with ⟨hBuf, -⟩ | ⟨-, -, v, hBuf⟩
  · rw [hBuf]
  · rw [hBuf, slotAt_slotPut_other _ _ _ _ ha]

/-- The decoder stores nothing without moving `TAIL`. -/
theorem decoderAct_buf_of_tail_eq (h : decoderAct rx s = .next t) (hSame : t.tail = s.tail) : t.buf = s.buf := by
  rcases decoderAct_store h with ⟨hBuf, -⟩ | ⟨hMoved, -, -⟩
  · exact hBuf
  · exact absurd hSame hMoved

/-- The decoder moves `TAIL` by at most one. -/
theorem decoderAct_tail (h : decoderAct rx s = .next t) : t.tail = s.tail ∨ t.tail = (s.tail + 1) % s.cfg.n := by
  rcases decoderAct_store h with ⟨-, hTail⟩ | ⟨-, hTail, -⟩
  · exact .inl hTail
  · exact .inr hTail

/-- Settles O21: the frame of the act, its one store, and its one write of the line state. -/
theorem decoderAccessRights : Obligations.DecoderAccessRights := by
  unfold Obligations.DecoderAccessRights
  intro rx s t h
  obtain ⟨hHead, hRsp, hData, hPull, hHrem, hSegs, hPos, hReady, hValid, hDiag, hCode, hCfg, hFault, hPrev, hInputs, hTick⟩ :=
    decoderAct_agreesOffDecoder h
  obtain ⟨hOvf, hPerr⟩ := decoderAct_sets_flags h
  refine ⟨hHead, hRsp, hData, hPull, hHrem, hSegs, hPos, hReady, hValid, hDiag, hCode, hCfg, hFault, hPrev, hInputs, hTick,
    fun a ha => decoderAct_slotAt h ha, fun hSame a => by rw [decoderAct_buf_of_tail_eq h hSame], decoderAct_tail h, hOvf, hPerr,
    fun hne => (decoderAct_lineRegisters h).resolve_left ?_⟩
  tauto

/-! ### The flags -/

/-- `PERR` stays set through a tick without reset that accepts neither `FLUSH` nor `BEGIN` (10_state.md R51). -/
theorem step_perr_sticky (h : step s = .next t) (hRst : s.currentIn.rst = false) (hFlush : ¬accepts s.currentIn s .flush)
    (hBegin : ¬accepts s.currentIn s .beginRx) (hs : s.perr = true) : t.perr = true := by
  refine step_keeps_without_reset (P := fun u => u.perr = true) h hRst hs (fun u v hPort hu hv => ?_)
    (fun u v hu hv => (decoderAct_sets_flags hv).2 hu)
  by_contra hClear
  obtain ⟨-, hAcc | hAcc⟩ := hostAct_perr hRst hv (by rw [hu]; exact hClear)
  · exact hFlush ((accepts_congr hPort).1 hAcc)
  · exact hBegin ((accepts_congr hPort).1 hAcc)

/-- `OVF` stays set through a tick without reset that accepts neither `READ` nor `FLUSH` (10_state.md R50). -/
theorem step_ovf_sticky (h : step s = .next t) (hRst : s.currentIn.rst = false) (hRead : ¬accepts s.currentIn s .read)
    (hFlush : ¬accepts s.currentIn s .flush) (hs : s.ovf = true) : t.ovf = true := by
  refine step_keeps_without_reset (P := fun u => u.ovf = true) h hRst hs (fun u v hPort hu hv => ?_)
    (fun u v hu hv => (decoderAct_sets_flags hv).1 hu)
  by_contra hClear
  obtain ⟨-, hAcc | hAcc⟩ := hostAct_ovf hRst hv (by rw [hu]; exact hClear)
  · exact hRead ((accepts_congr hPort).1 hAcc)
  · exact hFlush ((accepts_congr hPort).1 hAcc)

/-- Settles O22: the decoder only sets the flags, and the host's act clears them only by the commands named. -/
theorem flagsAreSticky : Obligations.FlagsAreSticky := by
  unfold Obligations.FlagsAreSticky
  intro s t h
  constructor
  · intro hSet hClear
    by_contra! hNone
    obtain ⟨hRst, hFlush, hBegin⟩ := hNone
    have hKept := step_perr_sticky h (by simpa using hRst) hFlush hBegin hSet
    simp [hClear] at hKept
  · intro hSet hClear
    by_contra! hNone
    obtain ⟨hRst, hRead, hFlush⟩ := hNone
    have hKept := step_ovf_sticky h (by simpa using hRst) hRead hFlush hSet
    simp [hClear] at hKept

end Sys2Proof.Machine
end

section
/-!
PROOFS. The tick (20_memory.md R88; 30_encoding.md R103; 10_state.md R55, R57, R59): what a step is, that no step follows a fault, and an occupied
port over many ticks (41_transmit.md R160; 70_reset_and_hazards.md R276).
-/

namespace Sys2Proof.Machine

variable {i : Instr} {io : TickIn} {rx : Level} {s t : State}

/-- Settles O12: `step` looks at the mark before it runs a tick. -/
theorem faultIsAbsorbing : Obligations.FaultIsAbsorbing := by
  unfold Obligations.FaultIsAbsorbing
  intro s k hc hk
  simp [step, hc, hk]

/-! ### What a step is -/

/-- A step of a well-formed block without a fault, in a tick without reset, is the two agents' acts (20_memory.md R88). -/
theorem step_eq_agentsAct (hc : s.cfg.wellFormed = true) (hf : s.faultMark = none) (hRst : s.currentIn.rst = false) :
    step s = endingTick (agentsAct s.currentIn s.advance.beginTick) s.currentIn.rxData := by
  simp [step, hc, hf, runTick, tickWith, hRst]

/-- Two pairs of acts agree where the first acts do and, in the state these leave, the second. -/
theorem bothActs_congr {a a' b b' : State → Result} (hFirst : a s = a' s) (hSecond : ∀ u, a s = .next u → b u = b' u) :
    bothActs a b s = bothActs a' b' s := by
  unfold bothActs
  rw [← hFirst]
  cases ha : a s with
  | next u => simp only [thenAct, hSecond u ha]
  | fault f => rfl
  | refused x => rfl

/-- `RX_PREV` follows the line through every step without reset (10_state.md R57). -/
theorem step_rxPrev (h : step s = .next t) (hRst : s.currentIn.rst = false) : t.rxPrev = s.currentIn.rxData := by
  obtain ⟨u, -, rfl⟩ := step_without_reset h hRst
  rfl

/-- Settles O5: `step` unfolded to the two acts, and the host's act to the accepted command's meaning. -/
theorem stepRunsAcceptedCommand : Obligations.StepRunsAcceptedCommand := by
  unfold Obligations.StepRunsAcceptedCommand
  refine ⟨fun s hc hf hRst => step_eq_agentsAct hc hf hRst, fun s => rfl, fun s t h hRst => step_rxPrev h hRst,
    fun s i hc hf hAcc => ?_⟩
  have hHost : ∀ u, u.hrem = s.advance.beginTick.hrem → hostAct s.currentIn u = exec i u.clearPulses :=
    fun u hPort => hostAct_of_accepts ((accepts_congr hPort).2 hAcc)
  rw [step_eq_agentsAct hc hf hAcc.1]
  unfold agentsAct
  cases s.currentIn.order with
  | hostFirst => exact congrArg (endingTick · _) (bothActs_congr (hHost _ rfl) fun _ _ => rfl)
  | decoderFirst => exact congrArg (endingTick · _) (bothActs_congr rfl fun u hu => hHost u (decoderAct_hrem hu))

/-! ### An occupied port -/

/-- The acts of two agents that leave no fault mark both answered a next state. -/
theorem bothActs_unfaulted {a b : State → Result} (h : bothActs a b s = .next t) (hf : t.faultMark = none) :
    ∃ u, a s = .next u ∧ b u = .next t := by
  rcases bothActs_cases h with ⟨f, -, rfl⟩ | ⟨u, hu, ⟨f, -, rfl⟩ | hv⟩
  · cases hf
  · cases hf
  · exact ⟨u, hu, hv⟩

/-- A busy tick that does not fault leaves the host's sequencer, the pin and the list of inputs as the busy tick of R103 has them, in either order
of the agents, and shows `cmd_ready` 0. -/
theorem step_busy (h : step s = .next t) (hf : t.faultMark = none) (hRst : s.currentIn.rst = false) (hBusy : 0 < s.hrem) :
    t.hrem = s.hrem - 1 ∧ t.wsegs = s.continueCommand.wsegs ∧ t.wpos = s.continueCommand.wpos ∧
      t.txData = s.continueCommand.txData ∧ t.cmdReady = false ∧ t.inputs = s.inputs.tail := by
  have hReady : s.advance.beginTick.cmdReady = false := by simp; omega
  obtain ⟨v, hv, rfl⟩ := step_without_reset h hRst
  unfold agentsAct at hv
  split at hv
  · obtain ⟨u, hu, hDec⟩ := bothActs_unfaulted hv hf
    rw [hostAct_busy _ (s := s.advance.beginTick) hBusy] at hu
    cases hu
    obtain ⟨-, -, hData, -, hHrem, hSegs, hPos, hRdy, -, -, -, -, -, -, hInputs, -⟩ := decoderAct_agreesOffDecoder hDec
    refine ⟨?_, ?_, ?_, ?_, hRdy.trans hReady, hInputs⟩ <;> simp [hData, hHrem, hSegs, hPos]
  · obtain ⟨u, hu, hHost⟩ := bothActs_unfaulted hv hf
    obtain ⟨-, -, hData, -, hHrem, hSegs, hPos, hRdy, -, -, -, -, -, -, hInputs, -⟩ := decoderAct_agreesOffDecoder hu
    rw [hostAct_busy _ (hHrem ▸ hBusy)] at hHost
    cases hHost
    refine ⟨?_, ?_, ?_, ?_, hRdy.trans hReady, hInputs⟩ <;> simp [hData, hHrem, hSegs, hPos]

/-- One step and the rest of a run. -/
theorem runSteps_succ {k : Nat} (h : runSteps (k + 1) s = .next t) : ∃ u, step s = .next u ∧ runSteps k u = .next t := by
  unfold runSteps at h
  split at h
  · next u hu => exact ⟨u, hu, h⟩
  · cases h
  · cases h

/-- A run that ends without a fault mark starts without one, since no step follows a fault. -/
theorem faultMark_of_runSteps {k : Nat} (h : runSteps k s = .next t) (hf : t.faultMark = none) : s.faultMark = none := by
  cases k with
  | zero => cases h; exact hf
  | succ k =>
    obtain ⟨u, hu, -⟩ := runSteps_succ h
    exact (step_cases hu).2.1

/-- The coming tick's inputs are the head of the list. -/
theorem currentIn_of_cons {x : TickIn} {rest : List TickIn} (h : s.inputs = x :: rest) : s.currentIn = x := by
  simp [State.currentIn, h]

/-- Settles O8: by induction on the ticks, each of which is a busy one. -/
theorem busyPortPlaysTheWaveform : Obligations.BusyPortPlaysTheWaveform := by
  unfold Obligations.BusyPortPlaysTheWaveform
  intro k
  induction k with
  | zero =>
    intro s t hs _ _ _ hRun _
    cases hRun
    exact ⟨rfl, fun h0 => absurd h0 (Nat.lt_irrefl 0), fun hPlays => (hs.2 hPlays).2.2⟩
  | succ k ih =>
    intro s t hs hk hLen hInputs hRun hf
    obtain ⟨u, hu, hRest⟩ := runSteps_succ hRun
    obtain ⟨x, rest, hList⟩ := List.exists_cons_of_length_pos (by omega : 0 < s.inputs.length)
    rw [hList] at hLen hInputs
    have hRst : s.currentIn.rst = false := currentIn_of_cons hList ▸ hInputs x (by simp)
    obtain ⟨hHrem, hSegs, hPos, hData, hReady, hTail⟩ :=
      step_busy hu (faultMark_of_runSteps hRest hf) hRst (by omega)
    have hInputs' : u.inputs = rest := by rw [hTail, hList]; rfl
    obtain ⟨hHrem', hReady', hLevel⟩ := ih u t (step_waveInv hu hs) (by omega) (by rw [hInputs']; simpa using hLen)
      (fun y hy => hInputs y (by rw [hInputs'] at hy; simp [hy])) hRest hf
    refine ⟨by omega, fun _ => ?_, fun hPlays => ?_⟩
    · cases k with
      | zero => cases hRest; exact hReady
      | succ k => exact hReady' (Nat.succ_pos k)
    · cases k with
      | zero =>
        cases hRest
        rw [hData]
        exact continueCommand_waveLevel hs hPlays
      | succ k =>
        have hMore : s.hrem - 1 ≠ 0 := by omega
        simp only [State.continueCommand_wsegs, State.continueCommand_wpos, if_neg hMore, if_neg hPlays] at hSegs hPos
        rw [hSegs, hPos] at hLevel
        rw [show s.wpos + (k + 1 + 1) = s.wpos + 1 + (k + 1) by omega]
        exact hLevel hPlays

end Sys2Proof.Machine
end

section
/-!
PROOFS. The memory model's ticks (20_memory.md): that a step is total and brings a command and a decode nearer its end (R88;
70_reset_and_hazards.md R286, R287), and the two admitted results of a race in one tick (R95; 70_reset_and_hazards.md R281).
-/

namespace Sys2Proof.Machine

variable {io : TickIn} {rx : Level} {s t u : State}

/-! ### Totality -/

/-- The two agents' acts answer a next state in either order: a fault becomes the mark. -/
theorem agentsAct_total (io : TickIn) (s : State) : ∃ t, agentsAct io s = .next t := by
  unfold agentsAct
  cases io.order with
  | hostFirst => exact bothActs_total (hostAct_not_refused io) (decoderAct_not_refused io.rxData)
  | decoderFirst => exact bothActs_total (decoderAct_not_refused io.rxData) (hostAct_not_refused io)

/-- A step of a well-formed block without a fault, in a tick with reset, is the reset action (70_reset_and_hazards.md R270). -/
theorem step_eq_resetBlock (hc : s.cfg.wellFormed = true) (hf : s.faultMark = none) (hRst : s.currentIn.rst = true) :
    step s = .next s.advance.resetBlock := by
  simp [step, hc, hf, runTick, tickWith, hRst]

/-- A step of a well-formed block without a fault answers a next state. -/
theorem step_total (hc : s.cfg.wellFormed = true) (hf : s.faultMark = none) : ∃ t, step s = .next t := by
  cases hRst : s.currentIn.rst with
  | true => exact ⟨_, step_eq_resetBlock hc hf hRst⟩
  | false =>
    obtain ⟨u, hu⟩ := agentsAct_total s.currentIn s.advance.beginTick
    exact ⟨u.endTick s.currentIn.rxData, by rw [step_eq_agentsAct hc hf hRst, hu]; rfl⟩

/-! ### Progress -/

/-- A step in a tick with reset is the reset action. -/
theorem step_with_reset (h : step s = .next t) (hRst : s.currentIn.rst = true) : t = s.advance.resetBlock := by
  obtain ⟨hc, hf, -⟩ := step_cases h
  rw [step_eq_resetBlock hc hf hRst] at h
  cases h
  rfl

/-- A tick without a fault brings the command on the port nearer its end: it counts `HREM` down, or reset clears it. -/
theorem step_hrem_lt (h : step s = .next t) (hf : t.faultMark = none) (hBusy : 0 < s.hrem) : t.hrem < s.hrem := by
  cases hRst : s.currentIn.rst with
  | true =>
    rw [step_with_reset h hRst]
    exact hBusy
  | false =>
    obtain ⟨hHrem, -⟩ := step_busy h hf hRst hBusy
    omega

/-- The decode at offset `c` is over in `t`, or it stands at the next offset, still before the last. -/
def State.DecodeAdvanced (c : Nat) (t : State) : Prop :=
  t.dseq = .idle ∨ ∃ w p st, t.dseq = .busy (c + 1) w p st ∧ c + 1 < instDone t.cfg

/-- The decoder's act ends a decode or takes it to the next offset. -/
theorem decoderAct_decodeAdvanced {c : Nat} {w : Slot} {p st : Level} (h : decoderAct rx s = .next t)
    (hSeq : s.dseq = .busy c w p st) (hBefore : c < instDone s.cfg) : t.DecodeAdvanced c := by
  rcases decoderAct_cases h with ⟨hIdle, -⟩ | ⟨c', w, p, st, hSeq', rfl | rfl | ⟨v, u, -, rfl⟩ | ⟨w', p', st', rfl, hLast, -⟩⟩
  · rw [hSeq] at hIdle
    cases hIdle
  · exact .inl rfl
  · exact .inl rfl
  · exact .inl rfl
  · rw [hSeq] at hSeq'
    cases hSeq'
    refine .inr ⟨w', p', st', rfl, ?_⟩
    show c + 1 < instDone s.cfg
    omega

/-- In a tick that leaves no fault mark the decoder's act ran, on the decode as it stood at the tick's start, and the host's act changed nothing of
its result. -/
theorem agentsAct_runs_decoderAct (h : agentsAct io s = .next t) (hf : t.faultMark = none) :
    ∃ u v, u.dseq = s.dseq ∧ u.cfg = s.cfg ∧ decoderAct io.rxData u = .next v ∧ t.dseq = v.dseq ∧ t.cfg = v.cfg := by
  unfold agentsAct at h
  split at h
  · obtain ⟨u, hu, hDec⟩ := bothActs_unfaulted h hf
    obtain ⟨-, hSeq, -, -, hCfg, -⟩ := hostAct_agreesOffHost hu
    exact ⟨u, t, hSeq, hCfg, hDec, rfl, rfl⟩
  · obtain ⟨v, hDec, hHost⟩ := bothActs_unfaulted h hf
    obtain ⟨-, hSeq, -, -, hCfg, -⟩ := hostAct_agreesOffHost hHost
    exact ⟨s, v, rfl, rfl, hDec, hSeq, hCfg⟩

/-- A tick without a fault brings a decode nearer its end: the decoder's act moves it on, or reset ends it. -/
theorem step_decodeAdvanced {c : Nat} {w : Slot} {p st : Level} (h : step s = .next t) (hf : t.faultMark = none)
    (hSeq : s.dseq = .busy c w p st) (hBefore : c < instDone s.cfg) : t.DecodeAdvanced c := by
  cases hRst : s.currentIn.rst with
  | true =>
    rw [step_with_reset h hRst]
    exact .inl rfl
  | false =>
    obtain ⟨x, hActs, rfl⟩ := step_without_reset h hRst
    obtain ⟨u, v, hSeqU, hCfgU, hDec, hSeqX, hCfgX⟩ := agentsAct_runs_decoderAct hActs hf
    have hAdvanced : v.DecodeAdvanced c := decoderAct_decodeAdvanced hDec (hSeqU.trans hSeq) (hCfgU ▸ hBefore)
    unfold State.DecodeAdvanced
    rw [State.endTick_dseq, State.endTick_cfg, hSeqX, hCfgX]
    exact hAdvanced

/-- Settles O9: neither agent refuses and a fault is only marked; the busy tick of the port and the decoder's act each move on by one. -/
theorem stepsNeverHang : Obligations.StepsNeverHang := by
  unfold Obligations.StepsNeverHang
  refine ⟨fun s => step_total, fun s t h hf => ⟨step_hrem_lt h hf, fun c w p st hSeq hBefore => ?_⟩⟩
  have hAdvanced := step_decodeAdvanced h hf hSeq hBefore
  rw [State.DecodeAdvanced, step_cfg h] at hAdvanced
  exact hAdvanced

/-! ### Races in one tick -/

/-- Two acts that both answer a next state, one after the other. -/
theorem bothActs_of_next {a b : State → Result} (ha : a s = .next u) (hb : b u = .next t) : bothActs a b s = .next t := by
  simp [bothActs, thenAct, ha, hb]

/-- `Enqueue` on a buffer that is not full stores the byte (43_buffer.md R210). -/
theorem enqueue_of_not_full (v : Slot) (hHead : s.head < s.cfg.n) (hTail : s.tail < s.cfg.n)
    (hFull : advanceIndex s s.tail 1 ≠ s.head) : enqueue s v = .next (s.push v) := by
  simp [enqueue, hFull, Nat.not_le.2 hHead, Nat.not_le.2 hTail]

/-- What `FLUSH` leaves is not full in a buffer of at least two slots: the byte enqueued next is stored. -/
theorem enqueue_after_flush (v : Slot) (hN : 2 ≤ s.cfg.n) :
    enqueue (s.emptyBuffer.occupy oneTick) v = .next ((s.emptyBuffer.occupy oneTick).push v) := by
  have hNotFull : advanceIndex (s.emptyBuffer.occupy oneTick) 0 1 ≠ 0 := by
    simp [advanceIndex, Nat.mod_eq_of_lt hN]
  have hPos : 0 < s.cfg.n := by omega
  exact enqueue_of_not_full v hPos hPos hNotFull

/-- `FLUSH` and an `Enqueue` in one tick: the byte is in slot 0 with the host first; with the decoder first it is stored and then lost, since the
buffer is emptied (20_memory.md R95). -/
theorem flush_enqueue_race (v : Slot) (hN : 2 ≤ s.cfg.n) (hHead : s.head < s.cfg.n) (hTail : s.tail < s.cfg.n)
    (hFull : (s.tail + 1) % s.cfg.n ≠ s.head) :
    (∃ t, bothActs (exec .flush) (fun u => enqueue u v) s = .next t ∧ t.head = 0 ∧ t.tail = 1 ∧ slotAt t.buf 0 = some v) ∧
      ∃ t, bothActs (fun u => enqueue u v) (exec .flush) s = .next t ∧ t.head = 0 ∧ t.tail = 0 ∧
        slotAt t.buf s.tail = some v := by
  constructor
  · refine ⟨_, bothActs_of_next rfl (enqueue_after_flush v hN), rfl, ?_, slotAt_slotPut_same _ _ _⟩
    simp [advanceIndex, Nat.mod_eq_of_lt hN]
  · exact ⟨_, bothActs_of_next (enqueue_of_not_full v hHead hTail hFull) rfl, rfl, rfl, slotAt_slotPut_same _ _ _⟩

/-- After a failure the line state is Disabled, so `BEGIN` clears `PERR` in both modes (40_line_state.md R146). -/
theorem beginClear_fail_perr (s : State) : s.fail.beginClear.perr = false := by
  simp [beginClears]

/-- `BEGIN` and a decoder failure in one tick: the failure's disable stands with the host first, the arming with the decoder first
(20_memory.md R95, 60_exceptions.md R252). -/
theorem begin_fail_race (s : State) :
    (∃ t, bothActs (exec .beginRx) (fun u => .next u.fail) s = .next t ∧ t.lineState = .disabled ∧ t.perr = true ∧
        t.armed = false) ∧
      ∃ t, bothActs (fun u => .next u.fail) (exec .beginRx) s = .next t ∧ t.lineState = .interruptEnabled ∧
        t.perr = false ∧ t.armed = true :=
  ⟨⟨_, bothActs_of_next rfl rfl, rfl, rfl, rfl⟩, ⟨_, bothActs_of_next rfl rfl, rfl, beginClear_fail_perr s, rfl⟩⟩

/-- Settles O24: each order run act by act; the second race needs neither of its premises. -/
theorem sameTickRaces : Obligations.SameTickRaces := by
  unfold Obligations.SameTickRaces
  exact ⟨fun s v => flush_enqueue_race v, fun s _ _ => begin_fail_race s⟩

end Sys2Proof.Machine
end

section
/-!
PROOFS. The encoding (30_encoding.md R100 to R105): what `Decode` answers to a word, by the word's fields; that it inverts the encoder; and what
performing an illegal word or an unrecognized state code does.
-/

namespace Sys2Proof

variable {op : BitVec 4} {arg : Byte} {w : Word}

/-! ### Rows of the opcode map -/

/-- The opcodes that take no operand, as R104 lists them. -/
theorem takesArg_eq_false_iff : takesArg op = false ↔ op ∉ [0x4#4, 0x6#4, 0xD#4] := by
  simp [takesArg, and_assoc]

/-- The rows of the opcode map that take no operand (R102). -/
theorem mem_plainRows (hOp : op ≠ 0#4) (hTakes : takesArg op = false) :
    op ∈ [0x1#4, 0x2#4, 0x3#4, 0x5#4, 0x7#4, 0x8#4, 0x9#4, 0xA#4, 0xB#4, 0xC#4, 0xE#4, 0xF#4] := by
  revert op
  decide

/-- A legal opcode with a legal argument is the row of a command, whose word has these fields (R102). -/
theorem exists_command_of_row (hOp : op ≠ 0#4) (hArg : takesArg op = false → arg = 0#8) :
    ∃ i, commandOfRow op arg = .ok i ∧ encode i = commandWord op arg := by
  rcases hTakes : takesArg op with _ | _
  · obtain rfl := hArg hTakes
    have hRow := mem_plainRows hOp hTakes
    simp only [List.mem_cons, List.not_mem_nil, or_false] at hRow
    obtain rfl | rfl | rfl | rfl | rfl | rfl | rfl | rfl | rfl | rfl | rfl | rfl := hRow
    exacts [⟨.beginRx, rfl, rfl⟩, ⟨.endRx, rfl, rfl⟩, ⟨.hold, rfl, rfl⟩, ⟨.wake, rfl, rfl⟩, ⟨.avail, rfl, rfl⟩,
      ⟨.peek, rfl, rfl⟩, ⟨.read, rfl, rfl⟩, ⟨.endLf, rfl, rfl⟩, ⟨.endCr, rfl, rfl⟩, ⟨.flush, rfl, rfl⟩,
      ⟨.hasOvf, rfl, rfl⟩, ⟨.hasPe, rfl, rfl⟩]
  · simp only [takesArg, Bool.or_eq_true, beq_iff_eq] at hTakes
    obtain (rfl | rfl) | rfl := hTakes
    · exact ⟨.setSt arg, rfl, rfl⟩
    · exact ⟨.wChar arg, rfl, rfl⟩
    · exact ⟨.advH arg, rfl, rfl⟩

/-! ### `Decode` -/

/-- Everything `Decode` answers: a rejection for each of R104's three classes, or the command that the word encodes. -/
theorem decode_cases (w : Word) :
    (opField w = 0#4 ∧ decode w = .error .reservedOpcode) ∨
      (opField w ≠ 0#4 ∧ rsvField w ≠ 0#4 ∧ decode w = .error .reservedBits) ∨
      (opField w ≠ 0#4 ∧ rsvField w = 0#4 ∧ takesArg (opField w) = false ∧ argField w ≠ 0#8 ∧
        decode w = .error .strayArgument) ∨
      (opField w ≠ 0#4 ∧ rsvField w = 0#4 ∧ (takesArg (opField w) = false → argField w = 0#8) ∧
        ∃ i, decode w = .ok i ∧ w = encode i) := by
  unfold decode
  split
  · next hOp => exact .inl ⟨hOp, rfl⟩
  · next hOp =>
    split
    · next hRsv => exact .inr (.inl ⟨hOp, hRsv, rfl⟩)
    · next hRsv =>
      have hRsv := not_not.1 hRsv
      split
      · next hStray => exact .inr (.inr (.inl ⟨hOp, hRsv, hStray.1, hStray.2, rfl⟩))
      · next hLegal =>
        have hArg : takesArg (opField w) = false → argField w = 0#8 := by simpa using hLegal
        obtain ⟨i, hRow, hWord⟩ := exists_command_of_row hOp hArg
        exact .inr (.inr (.inr ⟨hOp, hRsv, hArg, i, hRow, by rw [hWord, commandWord_fields w hRsv]⟩))

/-- A command's word with legal fields decodes through its row of the opcode map. -/
theorem decode_commandWord (hOp : op ≠ 0#4) (hArg : takesArg op = true ∨ arg = 0#8) :
    decode (commandWord op arg) = commandOfRow op arg := by
  rcases hArg with hArg | rfl <;> simp [decode, *]

/-- The word of every command decodes to it. -/
@[simp] theorem decode_encode (i : Instr) : decode (encode i) = .ok i := by
  cases i with
  | setSt c => exact decode_commandWord (by decide) (.inl rfl)
  | wChar b => exact decode_commandWord (by decide) (.inl rfl)
  | advH n => exact decode_commandWord (by decide) (.inl rfl)
  | beginRx | endRx | hold | wake | avail | peek | read | endLf | endCr | flush | hasOvf | hasPe =>
    exact decode_commandWord (by decide) (.inr rfl)

/-- Settles O2: no second word names a command, since a decoded word is rebuilt from its fields (`decode_cases`). -/
theorem decodeInvertsEncode : Obligations.DecodeInvertsEncode := by
  unfold Obligations.DecodeInvertsEncode
  intro w i
  constructor
  · intro h
    rcases decode_cases w with ⟨-, hDec⟩ | ⟨-, -, hDec⟩ | ⟨-, -, -, -, hDec⟩ | ⟨-, -, -, j, hDec, hWord⟩
    case inr.inr.inr =>
      rw [hDec] at h
      cases h
      exact hWord
    all_goals simp [hDec] at h
  · rintro rfl
    exact decode_encode i

theorem decode_eq_reservedOpcode_iff : decode w = .error .reservedOpcode ↔ opField w = 0#4 := by
  rcases decode_cases w with ⟨hOp, hDec⟩ | ⟨hOp, -, hDec⟩ | ⟨hOp, -, -, -, hDec⟩ | ⟨hOp, -, -, i, hDec, -⟩ <;> simp [hOp, hDec]

theorem decode_eq_reservedBits_iff : decode w = .error .reservedBits ↔ opField w ≠ 0#4 ∧ rsvField w ≠ 0#4 := by
  rcases decode_cases w with ⟨hOp, hDec⟩ | ⟨hOp, hRsv, hDec⟩ | ⟨-, hRsv, -, -, hDec⟩ | ⟨-, hRsv, -, i, hDec, -⟩ <;> simp [*]

theorem decode_eq_strayArgument_iff :
    decode w = .error .strayArgument ↔
      opField w ≠ 0#4 ∧ rsvField w = 0#4 ∧ takesArg (opField w) = false ∧ argField w ≠ 0#8 := by
  rcases decode_cases w with ⟨hOp, hDec⟩ | ⟨-, hRsv, hDec⟩ | ⟨hOp, hRsv, hTakes, hArg, hDec⟩ | ⟨-, -, hArg, i, hDec, -⟩
  · simp [hOp, hDec]
  · simp [hRsv, hDec]
  · simp [hOp, hRsv, hTakes, hArg, hDec]
  · simpa [hDec] using fun _ _ => hArg

/-- The words that are a command's encoding are those in none of R104's three classes. -/
theorem decode_isCommand_iff :
    (∃ i, decode w = .ok i ∧ w = encode i) ↔
      ¬(opField w = 0#4 ∨ rsvField w ≠ 0#4 ∨ (takesArg (opField w) = false ∧ argField w ≠ 0#8)) := by
  rcases decode_cases w with ⟨hOp, hDec⟩ | ⟨-, hRsv, hDec⟩ | ⟨-, -, hTakes, hArg, hDec⟩ | ⟨hOp, hRsv, hArg, hCommand⟩
  · simp [hOp, hDec]
  · simp [hRsv, hDec]
  · simp [hTakes, hArg, hDec]
  · simpa [hOp, hRsv, hCommand] using hArg

end Sys2Proof

namespace Sys2Proof.Machine

variable {s : State}

/-- Performing a word that `Decode` rejects, for whatever reason (R104). -/
theorem performWord_of_error {w : Word} {r : DecodeReject} (h : decode w = .error r) : performWord w s = .next (performIllegal s) := by
  simp [performWord, h]

/-- Settles O3: the three classes by `decode_cases`, and an illegal word's performance from its definition. -/
theorem illegalWords : Obligations.IllegalWords := by
  unfold Obligations.IllegalWords
  refine ⟨fun w => ⟨decode_eq_reservedOpcode_iff, decode_eq_reservedBits_iff, ?_, ?_⟩, fun w s ⟨r, hr⟩ => performWord_of_error hr⟩
  · rw [decode_eq_strayArgument_iff, takesArg_eq_false_iff, List.mem_cons (b := 0x0#4), not_or, and_assoc]
    exact and_congr_right' and_left_comm
  · rw [decode_isCommand_iff, takesArg_eq_false_iff]
    rfl

/-- Settles O1: the legal words are their commands' encodings, and the illegal ones lie in their classes. -/
theorem specWordsDecode : Obligations.SpecWordsDecode := by
  unfold Obligations.SpecWordsDecode
  exact ⟨decode_encode .beginRx, decode_encode (.setSt 4#8), decode_encode (.setSt 0xF4#8), decode_encode (.wChar 0x30#8),
    decode_encode .read, decode_encode (.advH 255#8), decode_encode .hasPe, decode_eq_reservedOpcode_iff.2 (by decide),
    decode_eq_reservedBits_iff.2 (by decide), decode_eq_strayArgument_iff.2 (by decide)⟩

/-- A command's word by its upper and its lower byte. -/
theorem commandWord_eq_append (op : BitVec 4) (arg : Byte) : commandWord op arg = (op ++ 0#4 : Byte) ++ arg :=
  (BitVec.append_assoc (x₁ := op) (x₂ := 0#4) (x₃ := arg)).symm

/-- A code above 4 names no state (R124). -/
theorem stateOfCode_eq_none {c : Byte} (h : 5 ≤ c.toNat) : stateOfCode c = none := by
  rw [Option.eq_none_iff_forall_ne_some]
  intro ls hc
  have := stateOfCode_some_le hc
  omega

/-- `SETST` of an unrecognized code raises `Diag(BadState)` and takes one tick (40_line_state.md R143, R149). -/
theorem exec_setSt_unrecognized {c : Byte} (h : stateOfCode c = none) :
    exec (.setSt c) s = .next ((s.raiseDiag diagBadState).occupy oneTick) := by
  simp [exec, execSetSt, h]

/-- Settles O4: each word is its command's encoding, and no code above 4 names a state. -/
theorem operandsAlwaysLegal : Obligations.OperandsAlwaysLegal := by
  unfold Obligations.OperandsAlwaysLegal
  have hWord : ∀ i op arg, encode i = commandWord op arg → decode ((op ++ 0#4 : Byte) ++ arg) = .ok i := by
    intro i op arg h
    rw [← commandWord_eq_append, ← h, decode_encode]
  exact ⟨fun c => hWord (.setSt c) 4#4 c rfl, fun b => hWord (.wChar b) 6#4 b rfl, fun n => hWord (.advH n) 0xD#4 n rfl,
    fun c s hc => exec_setSt_unrecognized (stateOfCode_eq_none hc)⟩

end Sys2Proof.Machine
end

section
/-!
PROOFS. How long a command occupies the port (30_encoding.md R102, R103; 70_reset_and_hazards.md R286; 41_transmit.md R166), and the host's act
rule by rule (30_encoding.md R103).
-/

namespace Sys2Proof.Machine

variable {i : Instr} {io : TickIn} {s t : State}

/-! ### Durations -/

/-- An operation continued for the same duration whatever its value. -/
theorem hrem_of_withValue {α : Type} {r : Except Fault α} {k : α → State} {n : Nat}
    (h : withValue r (fun v => .next (k v)) = .next t) (hk : ∀ v, (k v).hrem = n) : t.hrem = n := by
  obtain ⟨v, -, hv⟩ := withValue_next h
  cases hv
  exact hk v

/-- A query that answers at once in one case, and otherwise through an operation, lasts one tick if the operation's end does. -/
theorem hrem_of_answer_or {α : Type} {b : Bool} {w : Word} {r : Except Fault α} {k : α → State}
    (h : (if b then .next (s.answer w) else withValue r (fun v => .next (k v))) = (.next t : Result))
    (hk : ∀ v, (k v).hrem = 0) : t.hrem = 0 := by
  split at h
  · cases h
    rfl
  · exact hrem_of_withValue h hk

/-- `SETST 4` lasts as long as `BEGIN`, and every other code one tick, recognized or not (40_line_state.md R144, R149). -/
theorem execSetSt_hrem {c : Byte} (h : execSetSt c s = .next t) : t.hrem = duration s.cfg (.setSt c) - 1 := by
  have hFour : stateOfCode c = some .interruptEnabled ↔ c = 4#8 := stateOfCode_eq_some_iff
  unfold execSetSt at h
  split at h <;> cases h
  · next hc => simp [duration, hFour.1 hc]
  · next hOther hc =>
    have hNot : c ≠ 4#8 := fun h4 => hOther (Option.some.inj (hc.symm.trans (hFour.2 h4)))
    simp [duration, hNot]
  · next hc =>
    have hNot : c ≠ 4#8 := fun h4 => by simp [hFour.2 h4] at hc
    simp [duration, hNot]

/-- A command that answers a next state leaves `HREM` at its duration less one. -/
theorem exec_hrem (h : exec i s = .next t) : t.hrem = duration s.cfg i - 1 := by
  cases i with
  | setSt c => exact execSetSt_hrem h
  | avail | peek | read => exact hrem_of_answer_or h fun _ => rfl
  | endLf | endCr => exact hrem_of_withValue h fun _ => rfl
  | beginRx | endRx | hold | wake | wChar b | flush | advH n | hasOvf | hasPe => cases h; rfl

/-- Settles O35: one command at a time. -/
theorem commandsLastTheirDuration : Obligations.CommandsLastTheirDuration := by
  unfold Obligations.CommandsLastTheirDuration
  exact fun i s t => exec_hrem

theorem totalTicks_eq_sum (c : Cfg) (l : List Instr) : totalTicks c l = (l.map (duration c)).sum := by
  induction l with
  | nil => rfl
  | cons i rest ih => simp [totalTicks, ih]

/-- Characters sent back to back take ten bit periods each (41_transmit.md R165). -/
theorem totalTicks_map_wChar (c : Cfg) (text : List Byte) : totalTicks c (text.map .wChar) = 10 * c.tBitTx * text.length := by
  induction text with
  | nil => rfl
  | cons b rest ih =>
    simp only [List.map_cons, totalTicks, duration, frameTicks, ih, List.length_cons]
    ring

/-- Settles O34: the ticks of the wake, of the characters and of `SETST` add up. -/
theorem sendCmdExpansion : Obligations.SendCmdExpansion := by
  unfold Obligations.SendCmdExpansion
  intro c text
  refine ⟨rfl, by simp [sendCmd], ?_⟩
  have hSum : totalTicks c (sendCmd text) = wakeTicks c + totalTicks c (text.map .wChar) + oneTick := by
    simp [totalTicks_eq_sum, sendCmd, duration, Nat.add_assoc]
  rw [hSum, totalTicks_map_wChar]
  rfl

/-! ### The host's act -/

/-- A free port to which nothing is presented only ends the pulses. -/
theorem hostAct_idle (hFree : s.hrem = 0) (hValid : io.cmdValid = false) : hostAct io s = .next s.clearPulses := by
  simp [hostAct, hFree, hValid]

/-- A free port performs the word presented. -/
theorem hostAct_free (hFree : s.hrem = 0) (hValid : io.cmdValid = true) : hostAct io s = performWord io.cmdWord s.clearPulses := by
  simp [hostAct, hFree, hValid]

theorem performWord_of_ok {w : Word} (h : decode w = .ok i) : performWord w s = exec i s := by
  simp [performWord, h]

/-- A busy tick of a command without a waveform only counts down. -/
theorem continueCommand_silent (hSilent : s.wsegs = []) : s.continueCommand = { s with hrem := s.hrem - 1 } := by
  simp only [State.continueCommand, hSilent, if_true, ite_self]

/-- A busy tick of a waveform drives its next level; the port's last one ends it (41_transmit.md R160). -/
theorem continueCommand_wave {l : Level} (hBusy : 0 < s.hrem) (hPlays : s.wsegs ≠ [])
    (hLevel : waveLevel s.wsegs (s.wpos + 1) = some l) :
    s.continueCommand =
      { s with
        hrem := s.hrem - 1
        wpos := if s.hrem = 1 then 0 else s.wpos + 1
        wsegs := if s.hrem = 1 then [] else s.wsegs
        txData := l } := by
  have hLast : s.hrem - 1 = 0 ↔ s.hrem = 1 := by omega
  simp [State.continueCommand, hPlays, driven, hLevel, hLast]

/-- The host's act does not touch the `cmd_ready` port. -/
theorem hostAct_cmdReady (h : hostAct io s = .next t) : t.cmdReady = s.cmdReady :=
  hostAct_keeps (P := fun u => u.cmdReady = s.cmdReady) h rfl (fun _ hu => hu) (fun _ _ hu => hu) (fun _ _ hu => hu)
    (fun _ _ _ _ hu hv => exec_keeps (P := fun u => u.cmdReady = s.cmdReady) hv hu)

/-- A tick without reset shows `cmd_ready` as it was set at the tick's start, from the port's occupation there (10_state.md R55). -/
theorem step_cmdReady (h : step s = .next t) (hRst : s.currentIn.rst = false) : t.cmdReady = decide (s.hrem = 0) :=
  step_keeps_without_reset (P := fun u => u.cmdReady = decide (s.hrem = 0)) h hRst rfl
    (fun _ _ _ hu hv => (hostAct_cmdReady hv).trans hu)
    (fun _ _ hu hv => decoderAct_keeps (P := fun u => u.cmdReady = decide (s.hrem = 0)) hv hu)

/-- `cmd_ready` is 1 exactly in a tick without reset that starts with a free port. -/
theorem step_cmdReady_iff (h : step s = .next t) : t.cmdReady = true ↔ s.hrem = 0 ∧ s.currentIn.rst = false := by
  cases hRst : s.currentIn.rst with
  | true => simp [step_with_reset h hRst]
  | false => simp [step_cmdReady h hRst]

/-- Settles O6: the branches of `hostAct` one by one, and `cmd_ready` through the tick. -/
theorem hostActFollowsItsRule : Obligations.HostActFollowsItsRule := by
  unfold Obligations.HostActFollowsItsRule
  refine ⟨fun io s => ⟨fun hBusy hSilent => ?_, fun l hBusy hPlays hLevel => ?_, hostAct_idle, fun i hFree hValid hDecode => ?_,
    fun r hFree hValid hDecode => ?_⟩, fun s => rfl, fun s t => step_cmdReady_iff⟩
  · rw [hostAct_busy io hBusy, continueCommand_silent (s := s.clearPulses) hSilent]
    rfl
  · rw [hostAct_busy io hBusy, continueCommand_wave (s := s.clearPulses) hBusy hPlays hLevel]
    rfl
  · have hAct : hostAct io s = exec i s.clearPulses := by rw [hostAct_free hFree hValid, performWord_of_ok hDecode]
    exact ⟨hAct, fun t ht => exec_hrem (s := s.clearPulses) (hAct.symm.trans ht)⟩
  · rw [hostAct_free hFree hValid, performWord_of_error hDecode]
    rfl

end Sys2Proof.Machine
end

section
/-!
PROOFS. The Line State Controller (40_line_state.md R141 to R149): what `SetState` writes, and the whole next state of `BEGIN`, `END`, `HOLD` and
`SETST`.
-/

namespace Sys2Proof.Machine

variable {c : Byte} {s : State}

/-! ### `SetState` -/

/-- Settles O25: each arm of the case distinction is a row of R142's table. -/
theorem setStateWrites : Obligations.SetStateWrites := by
  unfold Obligations.SetStateWrites
  intro s ls
  cases ls with
  | disabled | holding | transmitting | listening | interruptEnabled => rfl

/-! ### `BEGIN`, `END` and `HOLD` -/

/-- When `BEGIN` clears `PERR` (R146). -/
theorem beginClears_iff (s : State) : beginClears s = true ↔ s.cfg.beginClear = .always ∨ s.lineState = .disabled := by
  simp [beginClears]

/-- `BEGIN`'s conditional clearing writes `PERR` and nothing else. -/
theorem beginClear_eq (s : State) :
    s.beginClear = { s with perr := if s.cfg.beginClear = .always ∨ s.lineState = .disabled then false else s.perr } := by
  simp only [State.beginClear, ← beginClears_iff]
  cases beginClears s <;> simp

/-- `BEGIN` clears before it sets the state, so the clearing reads the old `LINE_STATE` (R145, R146). -/
theorem exec_beginRx (s : State) :
    exec .beginRx s = .next ((s.beginClear.setState .interruptEnabled).occupy (settleTicks s.cfg)) := rfl

/-- Settles O26: the conditional clearing, then `SetState` and the settle delay. -/
theorem beginCompletes : Obligations.BeginCompletes := by
  unfold Obligations.BeginCompletes
  refine ⟨by decide, fun s => ?_⟩
  rw [exec_beginRx, beginClear_eq]
  rfl

/-- `END`'s whole effect is one `SetState` and one tick on the port (R147). -/
theorem exec_endRx (s : State) : exec .endRx s = .next ((s.setState .disabled).occupy oneTick) := rfl

/-- `HOLD`'s whole effect is one `SetState` and one tick on the port (R148). -/
theorem exec_hold (s : State) : exec .hold s = .next ((s.setState .holding).occupy oneTick) := rfl

/-- Settles O27: the arms of `SetState` that the two commands run, for one tick. -/
theorem endAndHoldComplete : Obligations.EndAndHoldComplete := by
  unfold Obligations.EndAndHoldComplete
  exact ⟨by decide, by decide, exec_endRx, exec_hold⟩

/-! ### `SETST` -/

/-- `SETST` of a state's code sets that state, for the settle delay if it is InterruptEnabled and for one tick otherwise (R149). -/
theorem exec_setSt_of_code {ls : LineState} (h : c.toNat = (codeOfState ls).toNat) :
    exec (.setSt c) s =
      .next ((s.setState ls).occupy (if ls = .interruptEnabled then settleTicks s.cfg else oneTick)) := by
  have hCode : stateOfCode c = some ls := by
    refine stateOfCode_eq_some_iff.2 (BitVec.eq_of_toNat_eq ?_)
    rw [h, BitVec.toNat_setWidth, Nat.mod_eq_of_lt (by omega)]
  cases ls <;> simp [exec, execSetSt, hCode]

/-- `SETST 0` is `END` (R149). -/
theorem exec_setSt_zero (s : State) : exec (.setSt 0#8) s = exec .endRx s := exec_setSt_of_code (ls := .disabled) rfl

/-- `SETST 1` is `HOLD` (R149). -/
theorem exec_setSt_one (s : State) : exec (.setSt 1#8) s = exec .hold s := exec_setSt_of_code (ls := .holding) rfl

/-- `SETST 4` is `BEGIN` without its clearing of `PERR` (R149). -/
theorem exec_setSt_four (s : State) :
    ∃ t u, exec (.setSt 4#8) s = .next t ∧ exec .beginRx s = .next u ∧ t = { u with perr := s.perr } :=
  ⟨_, _, exec_setSt_of_code (ls := .interruptEnabled) rfl, exec_beginRx s, rfl⟩

/-- Settles O28: code by code, each of the five that name a state by `exec_setSt_of_code`. -/
theorem setStCompletes : Obligations.SetStCompletes := by
  unfold Obligations.SetStCompletes
  refine ⟨commandWord_eq_append 4#4, fun c s => ?_, fun s => ⟨exec_setSt_zero s, exec_setSt_one s⟩, exec_setSt_four⟩
  split
  · next h => exact exec_setSt_of_code (ls := .disabled) h
  · next h => exact exec_setSt_of_code (ls := .holding) h
  · next h => exact exec_setSt_of_code (ls := .transmitting) h
  · next h => exact exec_setSt_of_code (ls := .listening) h
  · next h => exact exec_setSt_of_code (ls := .interruptEnabled) h
  · next h0 h1 h2 h3 h4 =>
    have hOther : c.toNat ≠ 0 ∧ c.toNat ≠ 1 ∧ c.toNat ≠ 2 ∧ c.toNat ≠ 3 ∧ c.toNat ≠ 4 := ⟨h0, h1, h2, h3, h4⟩
    exact exec_setSt_unrecognized (stateOfCode_eq_none (by omega))

end Sys2Proof.Machine
end

section
/-!
PROOFS. The Transmit Encoder (41_transmit.md R161 to R168): the parity fold and the transmitted byte, the segments of a frame, and the whole next
state of `WAKE` and `WCHAR`.
-/

namespace Sys2Proof.Machine

variable {s : State}

/-! ### The parity fold (R161) -/

/-- The table 0x6996 holds at `i` the parity of the bits of `i`. -/
theorem nibPar_eq_xor_bits (i : BitVec 4) :
    nibPar i = (i.getLsbD 0 ^^ i.getLsbD 1 ^^ i.getLsbD 2 ^^ i.getLsbD 3) := by
  revert i
  decide

/-- The fold of one nibble onto the other keeps the parity, so `parity8` is the exclusive or of all eight bits. -/
theorem parity8_eq_xor_bits (b : Byte) : parity8 b = ((List.range 8).map b.getLsbD).foldr xor false := by
  have hNibbles : parity8 b =
      ((b.getLsbD 4 ^^ b.getLsbD 0) ^^ (b.getLsbD 5 ^^ b.getLsbD 1) ^^ (b.getLsbD 6 ^^ b.getLsbD 2) ^^
        (b.getLsbD 7 ^^ b.getLsbD 3)) := by
    simp only [parity8, nibPar_eq_xor_bits, BitVec.getLsbD_xor, BitVec.getLsbD_extractLsb']
    rfl
  rw [hNibbles]
  simp only [List.range, List.range.loop, List.map, List.foldr, Bool.xor_false]
  simp only [Bool.xor_comm, Bool.xor_left_comm, Bool.xor_assoc]

/-- The parity of a count is the exclusive or of what is counted. -/
theorem countP_mod_two {α : Type} (p : α → Bool) (l : List α) :
    decide (l.countP p % 2 = 1) = (l.map p).foldr xor false := by
  induction l with
  | nil => rfl
  | cons a rest ih =>
    rw [List.map_cons, List.foldr_cons, ← ih, List.countP_cons]
    cases p a with
    | false => simp
    | true => by_cases hRest : rest.countP p % 2 = 1 <;> simp [hRest] <;> omega

/-- Settles O29: the table lookup is a shift, and both the fold and the count's parity are the exclusive or of the bits. -/
theorem parityFoldIsPopcountParity : Obligations.ParityFoldIsPopcountParity := by
  unfold Obligations.ParityFoldIsPopcountParity
  intro b
  refine ⟨?_, ?_⟩
  · rw [BitVec.getLsbD_ushiftRight]
    rfl
  · rw [parity8_eq_xor_bits, countP_mod_two]

/-! ### The transmitted byte (R162) -/

/-- The low seven bits are those a slot holds. -/
theorem lowSeven_eq_setWidth (b : Byte) : lowSeven b = (b.setWidth 7).setWidth 8 := by
  apply BitVec.eq_of_toNat_eq
  have hMask : b.toNat &&& 127 = b.toNat % 128 := Nat.and_two_pow_sub_one_eq_mod b.toNat 7
  simp only [lowSeven, BitVec.toNat_and, BitVec.toNat_setWidth, BitVec.toNat_ofNat, Nat.reducePow, Nat.reduceMod, hMask]
  omega

/-- The parity of a byte is that of its low seven bits, changed by its top bit. -/
theorem parity8_eq_lowSeven_xor (b : Byte) : parity8 b = (parity8 (lowSeven b) ^^ b[7]) := by
  simp [parity8_eq_xor_bits, List.range, List.range.loop, lowSeven]

/-- A bit put in place 7 leaves the low seven bits. -/
@[simp] theorem lowSeven_or_bitSeven (b : Byte) (p : Bool) : lowSeven (b ||| bitSeven p) = lowSeven b := by
  cases p <;> simp [lowSeven, bitSeven, BitVec.and_or_distrib_right]

@[simp] theorem lowSeven_lowSeven (b : Byte) : lowSeven (lowSeven b) = lowSeven b := by
  simp [lowSeven, BitVec.and_assoc]

/-- Every mode sends the low seven bits of the byte as they are. -/
theorem setWidth_txByte (m : TxBit7Mode) (b : Byte) : (txByte m b).setWidth 7 = b.setWidth 7 := by
  have hTop : ∀ p, (bitSeven p).setWidth 7 = 0#7 := by decide
  have hMask : (lowSeven b).setWidth 7 = b.setWidth 7 := by simp [lowSeven_eq_setWidth]
  cases m <;> simp [txByte, hTop, hMask]

/-- The parity of a byte whose top bit is replaced. -/
theorem parity8_replaced (b : Byte) (p : Bool) : parity8 (lowSeven b ||| bitSeven p) = (parity8 (lowSeven b) ^^ p) := by
  have hTop : (lowSeven b ||| bitSeven p)[7] = p := by cases p <;> simp [lowSeven, bitSeven]
  rw [parity8_eq_lowSeven_xor, hTop, lowSeven_or_bitSeven, lowSeven_lowSeven]

/-- `Mask7` puts the parity of the low seven bits above them, so it sends even parity. -/
theorem parity8_txByte_mask7 (b : Byte) : parity8 (txByte .mask7 b) = false := by
  simp [txByte, parity8_replaced]

/-- A byte below 0x80 has no bit 7 to mask. -/
theorem lowSeven_eq_self {b : Byte} (h : b.toNat < 128) : lowSeven b = b := by
  rw [lowSeven_eq_setWidth]
  apply BitVec.eq_of_toNat_eq
  simp only [BitVec.toNat_setWidth, Nat.reducePow]
  omega

/-- Below 0x80 every mode is `Mask7`. -/
theorem txByte_eq_mask7 (m : TxBit7Mode) {b : Byte} (h : b.toNat < 128) : txByte m b = txByte .mask7 b := by
  cases m <;> simp [txByte, lowSeven_eq_self h]

/-- A byte below 0x80 is sent with even parity in every mode. -/
theorem parity8_txByte_of_lt (m : TxBit7Mode) {b : Byte} (h : b.toNat < 128) : parity8 (txByte m b) = false := by
  rw [txByte_eq_mask7 m h, parity8_txByte_mask7]

/-- `Fold8Replace` counts the bit 7 that it then replaces, so from 0x80 on it sends odd parity. -/
theorem parity8_txByte_fold8Replace {b : Byte} (h : 128 ≤ b.toNat) : parity8 (txByte .fold8Replace b) = true := by
  have hTop : b[7] = true := (BitVec.msb_eq_true_iff_two_mul_ge (x := b)).2 (by omega)
  simp [txByte, parity8_replaced, parity8_eq_lowSeven_xor b, hTop]

/-- Settles O30: the formulas are `txByte`'s own, and the parities follow from what each mode puts in place 7. -/
theorem txByteModes : Obligations.TxByteModes := by
  unfold Obligations.TxByteModes
  intro b
  exact ⟨rfl, rfl, rfl, parity8_txByte_mask7 b, fun h => ⟨txByte_eq_mask7 _ h, txByte_eq_mask7 _ h⟩,
    parity8_txByte_fold8Replace, by decide⟩

/-! ### Frames (R163) -/

theorem ticks_of_mem_frameSegs {c : Cfg} {b : Byte} {g : Segment} (hg : g ∈ frameSegs c b) : g.ticks = c.tBitTx := by
  simp only [frameSegs, List.mem_append, List.mem_map, List.mem_singleton] at hg
  obtain (rfl | ⟨i, -, rfl⟩) | rfl := hg <;> rfl

/-- Segment `i + 1` of a frame carries bit `i` of the byte sent. -/
theorem frameSegs_data (c : Cfg) (b : Byte) {i : Nat} (hi : i < 8) :
    (frameSegs c b)[i + 1]? = some ⟨txLevelOfBit ((txByte c.txBit7Mode b).getLsbD i), c.tBitTx⟩ := by
  simp [frameSegs, List.getElem?_append, hi]

/-- Settles O31: the frame is the start bit, the eight bits of `frameSegs_data` and the stop bit. -/
theorem frameLayout : Obligations.FrameLayout := by
  unfold Obligations.FrameLayout
  intro c b
  refine ⟨rfl, fun g => ticks_of_mem_frameSegs, waveTicks_frameSegs c b, rfl, fun i hi => ?_, rfl⟩
  rw [frameSegs_data c b hi]
  rfl

/-! ### `WAKE` and `WCHAR` (R164, R165) -/

/-- A waveform starts at the level of its first segment (R160). -/
theorem startWave_cons {g : Segment} {rest : List Segment} (hTicks : 1 ≤ g.ticks) :
    s.startWave (g :: rest) = { s with wsegs := g :: rest, wpos := 0, txData := g.level } := by
  simp [State.startWave, driven, waveLevel, Nat.lt_of_succ_le hTicks]

/-- `WAKE` sets Transmitting and starts the wake waveform (R164). -/
theorem exec_wake (s : State) :
    exec .wake s = .next (((s.setState .transmitting).startWave (wakeSegs s.cfg)).occupy (wakeTicks s.cfg)) := rfl

/-- `WCHAR` starts the character's frame and sets no line state (R165, R168). -/
theorem exec_wChar (b : Byte) (s : State) :
    exec (.wChar b) s = .next ((s.startWave (frameSegs s.cfg b)).occupy (frameTicks s.cfg)) := rfl

/-- Settles O32: `SetState` of Transmitting, then the two segments of the wake from the break on. -/
theorem wakeCompletes : Obligations.WakeCompletes := by
  unfold Obligations.WakeCompletes
  refine ⟨by decide, fun s hc => ?_⟩
  obtain ⟨-, hBreak, -⟩ := (illFormedConfigurationIsRefused.1 s.cfg).1 hc
  have hWave := startWave_cons (s := s.setState .transmitting) (g := ⟨.high, s.cfg.tBreak⟩)
    (rest := [⟨.low, s.cfg.tMark⟩]) hBreak
  rw [exec_wake, wakeSegs, hWave]
  rfl

/-- Settles O33: the frame from its start bit on, and no other write. -/
theorem wCharCompletes : Obligations.WCharCompletes := by
  unfold Obligations.WCharCompletes
  refine ⟨commandWord_eq_append 6#4, fun b s hc => ?_⟩
  obtain ⟨-, -, -, hBit, -⟩ := (illFormedConfigurationIsRefused.1 s.cfg).1 hc
  have hWave : s.startWave (frameSegs s.cfg b) = { s with wsegs := frameSegs s.cfg b, wpos := 0, txData := .high } :=
    startWave_cons hBit
  rw [exec_wChar, hWave]
  rfl

end Sys2Proof.Machine
end

section
/-!
PROOFS. A whole decode over any line (42_receive.md R180 to R192): the decoder's act at an offset, the samples taken by an offset, and what the
ticks up to `s_done` answer.
-/

namespace Sys2Proof.Machine

variable {rx : Level} {c o : Nat} {w : Slot} {p st : Level} {s : State} {cfg : Cfg} {line : Nat → Level}

/-! ### The act at an offset -/

/-- The stop sample after offset `c`, where the decode goes on (R180, R186). -/
def sampleStop (cfg : Cfg) (c : Nat) (rx st : Level) : Level := if c = instStop cfg then rx else st

/-- A decode starts on a falling edge on an armed bus without `PERR` (R180, R182). -/
theorem decoderAct_starts (hIdle : s.dseq = .idle) (hArmed : s.armed = true) (hPerr : s.perr = false) (hPrev : s.rxPrev = .high) :
    decoderAct .low s = .next s.startDecode := by
  simp [decoderAct, decoderIdle, fallingEdge, hIdle, hArmed, hPerr, hPrev]

/-- An offset that is no spurious edge and no framing error takes its samples. -/
theorem decoderOffset_eq_finishOffset (hStart : c = instResample s.cfg → rx = .low) (hStop : c = instStop s.cfg → rx = .high) :
    decoderOffset rx c w p st s =
      finishOffset c (sampleData s.cfg c rx w) (sampleParity s.cfg c rx p) (sampleStop s.cfg c rx st) s := by
  have hSpurious : ¬(c = instResample s.cfg ∧ rx = .high) := fun ⟨hc, hHigh⟩ => by simp [hStart hc] at hHigh
  unfold decoderOffset
  rw [if_neg hSpurious]
  by_cases hc : c = instStop s.cfg
  · simp [sampleStop, hc, hStop hc]
  · simp [sampleStop, hc]

/-- Before the last offset the decode goes on. -/
theorem decoderOffset_goes_on (hMore : c ≠ instDone s.cfg) (hStart : c = instResample s.cfg → rx = .low)
    (hStop : c = instStop s.cfg → rx = .high) :
    decoderOffset rx c w p st s = .next
      (s.decoding c (sampleData s.cfg c rx w) (sampleParity s.cfg c rx p) (sampleStop s.cfg c rx st)) := by
  rw [decoderOffset_eq_finishOffset hStart hStop, finishOffset, if_neg hMore]

/-- A `LOW` stop sample fails whatever else was sampled (R188). -/
theorem complete_low : complete s w p .low = .next s.fail := rfl

/-- The last offset ends in `Complete`, a framing error there included. -/
theorem decoderOffset_last (hLast : c = instDone s.cfg) (hStart : c = instResample s.cfg → rx = .low) :
    decoderOffset rx c w p st s = endingDecode
      (complete s (sampleData s.cfg c rx w) (sampleParity s.cfg c rx p) (sampleStop s.cfg c rx st)) := by
  by_cases hFraming : c = instStop s.cfg ∧ rx = .low
  · obtain ⟨hc, rfl⟩ := hFraming
    rw [sampleStop, if_pos hc, complete_low]
    simp [decoderOffset, hc, endingDecode]
  · have hStop : c = instStop s.cfg → rx = .high := fun hc => by
      cases rx with
      | low => exact absurd ⟨hc, rfl⟩ hFraming
      | high => rfl
    rw [decoderOffset_eq_finishOffset hStart hStop, finishOffset, if_pos hLast]

/-! ### The samples -/

/-- A bit of a working byte after a bit was put (R185). -/
theorem getLsbD_putBit {j k : Nat} (b : Bool) (hj : j < 7) (hk : k < 7) :
    (putBit w k b).getLsbD j = if j = k then b else w.getLsbD j := by
  have hPlace : ((1#7) <<< k).getLsbD j = decide (k = j) := by
    rw [← BitVec.twoPow_eq, BitVec.getLsbD_twoPow, decide_eq_true hk, Bool.true_and]
  by_cases hjk : k = j
  · subst hjk
    cases b <;> simp [putBit, BitVec.getLsbD_and, BitVec.getLsbD_or, hPlace, -BitVec.getLsbD_eq_getElem]
  · have hne : j ≠ k := Ne.symm hjk
    cases b <;> simp [putBit, BitVec.getLsbD_and, BitVec.getLsbD_or, hPlace, hjk, hne, hj, -BitVec.getLsbD_eq_getElem]

/-- A bit after digits were put at a list of places: the new digit where the place is listed and its instant is `c`, else as it was. -/
theorem getLsbD_foldl_putBit {j : Nat} (hj : j < 7) {ks : List Nat} (hks : ∀ k ∈ ks, k < 7) (w : Slot) (d : Bool) :
    (ks.foldl (fun u k => if c = instData cfg k then putBit u k d else u) w).getLsbD j =
      if j ∈ ks ∧ c = instData cfg j then d else w.getLsbD j := by
  induction ks generalizing w with
  | nil => simp
  | cons k rest ih =>
    rw [List.foldl_cons, ih fun x hx => hks x (List.mem_cons_of_mem _ hx)]
    by_cases hc : c = instData cfg k
    · rw [if_pos hc, getLsbD_putBit d hj (hks k List.mem_cons_self)]
      grind
    · grind

/-- The data samples of offset `c` put the level in the bits whose instant it is, and keep the others (R180, R185). -/
theorem getLsbD_sampleData {j : Nat} (hj : j < 7) :
    (sampleData cfg c rx w).getLsbD j = if c = instData cfg j then bitOfRxLevel rx else w.getLsbD j := by
  rw [sampleData, getLsbD_foldl_putBit hj fun k => List.mem_range.1]
  simp only [List.mem_range, hj, true_and]

/-- The samples of a decode of `line` up to offset `o`: each one taken reads the line at its instant (R183 to R186). -/
structure SamplesTaken (cfg : Cfg) (line : Nat → Level) (o : Nat) (w : Slot) (p st : Level) : Prop where
  data : ∀ k, k < 7 → instData cfg k ≤ o → w.getLsbD k = bitOfRxLevel (line (instData cfg k))
  parity : cfg.parityMode = .gated → instParity cfg ≤ o → p = line (instParity cfg)
  stop : instStop cfg ≤ o → st = line (instStop cfg)

/-- Every sample comes after the start edge. -/
theorem samplesTaken_zero (hc : cfg.wellFormed = true) : SamplesTaken cfg line 0 w p st := by
  obtain ⟨-, -, -, -, hResample, -⟩ := (illFormedConfigurationIsRefused.1 cfg).1 hc
  refine ⟨fun k _ h => ?_, fun _ h => ?_, fun h => ?_⟩ <;> simp only [instParity, instStop, instData] at h <;> omega

/-- The samples of the next offset. -/
theorem SamplesTaken.next (h : SamplesTaken cfg line o w p st) :
    SamplesTaken cfg line (o + 1) (sampleData cfg (o + 1) (line (o + 1)) w) (sampleParity cfg (o + 1) (line (o + 1)) p)
      (sampleStop cfg (o + 1) (line (o + 1)) st) := by
  refine ⟨fun k hk hAt => ?_, fun hGated hAt => ?_, fun hAt => ?_⟩
  · rw [getLsbD_sampleData hk]
    by_cases hNow : o + 1 = instData cfg k
    · simp [hNow]
    · rw [if_neg hNow, h.data k hk (by omega)]
  · by_cases hNow : o + 1 = instParity cfg
    · simp [sampleParity, hGated, hNow]
    · simp only [sampleParity, hNow, and_false, if_false]
      exact h.parity hGated (by omega)
  · by_cases hNow : o + 1 = instStop cfg
    · simp [sampleStop, hNow]
    · rw [sampleStop, if_neg hNow]
      exact h.stop (by omega)

/-- The parity sample is part of the outcome in `Gated` mode only (R188). -/
theorem complete_congr_parity {p' : Level} (h : s.cfg.parityMode = .gated → p = p') : complete s w p st = complete s w p' st := by
  cases hMode : s.cfg.parityMode with
  | gated => rw [h hMode]
  | unconditional => simp [complete, rxOutcome, hMode]

/-- In a well-formed block every sample is taken by the last offset. -/
theorem instants_le_instDone (hc : cfg.wellFormed = true) :
    (∀ k, k < 7 → instData cfg k ≤ instDone cfg) ∧ (cfg.parityMode = .gated → instParity cfg ≤ instDone cfg) ∧
      instStop cfg ≤ instDone cfg := by
  have hStop := (instStop_bounds hc).2
  refine ⟨fun k hk => ?_, fun hGated => ?_, hStop⟩
  · have hMono : (k + 1) * cfg.rxSched.tRxBit ≤ (6 + 1) * cfg.rxSched.tRxBit := Nat.mul_le_mul_right _ (by omega)
    simp only [instStop, instData] at hStop ⊢
    omega
  · simp [instDone, hGated]

/-- `Complete` on the samples taken by the last offset is `Complete` on the line's levels at the sampling instants. -/
theorem SamplesTaken.complete_eq {v : Slot} (h : SamplesTaken cfg line (instDone cfg) w p st) (hc : cfg.wellFormed = true)
    (hCfg : s.cfg = cfg) (hBits : ∀ k, k < 7 → v.getLsbD k = bitOfRxLevel (line (instData cfg k))) :
    complete s w p st = complete s v (line (instParity cfg)) (line (instStop cfg)) := by
  obtain ⟨hData, hParity, hStop⟩ := instants_le_instDone hc
  have hByte : w = v := BitVec.eq_of_getLsbD_eq fun k hk => by rw [h.data k hk (hData k hk), hBits k hk]
  rw [hByte, h.stop hStop]
  exact complete_congr_parity fun hGated => h.parity (hCfg ▸ hGated) (hParity (hCfg ▸ hGated))

/-! ### The ticks of a decode -/

/-- `s` with a decode at offset `o`, and the two registers that the line moves. -/
@[simps]
def State.decodeAt (s : State) (o : Nat) (w : Slot) (p st : Level) (pend : Bool) (prev : Level) : State :=
  { s with dseq := .busy o w p st, edgePend := pend, rxPrev := prev }

variable {pend : Bool} {prev : Level}

/-- The act at an offset before the last, with an edge latched or not. -/
theorem decoderAct_goes_on (hMore : o + 1 ≠ instDone s.cfg) (hStart : o + 1 = instResample s.cfg → rx = .low)
    (hStop : o + 1 = instStop s.cfg → rx = .high) :
    ∃ pend', decoderAct rx (s.decodeAt o w p st pend prev) = .next
      (s.decodeAt (o + 1) (sampleData s.cfg (o + 1) rx w) (sampleParity s.cfg (o + 1) rx p)
        (sampleStop s.cfg (o + 1) rx st) pend' prev) :=
  ⟨_, decoderOffset_goes_on (s := (s.decodeAt o w p st pend prev).latchEdge rx) hMore hStart hStop⟩

/-- The act at the last offset, with an edge latched or not. -/
theorem decoderAct_last (hLast : o + 1 = instDone s.cfg) (hStart : o + 1 = instResample s.cfg → rx = .low) :
    ∃ pend', decoderAct rx (s.decodeAt o w p st pend prev) = endingDecode
      (complete (s.decodeAt o w p st pend' prev) (sampleData s.cfg (o + 1) rx w) (sampleParity s.cfg (o + 1) rx p)
        (sampleStop s.cfg (o + 1) rx st)) :=
  ⟨_, decoderOffset_last (s := (s.decodeAt o w p st pend prev).latchEdge rx) hLast hStart⟩

/-- A tick and the rest of a run. -/
theorem decodeRun_succ {j : Nat} {t : State} (h : decoderAct (line o) s = .next t) :
    decodeRun line o (j + 1) s = decodeRun line (o + 1) j (t.endTick (line o)) := by
  rw [decodeRun, h]

theorem decodeRun_one : decodeRun line o 1 s = endingTick (decoderAct (line o) s) (line o) := by
  cases h : decoderAct (line o) s <;> simp [decodeRun, endingTick, h]

/-- A decode goes on through the ticks before its last offset, taking its samples, unless a stop sample on the way is `LOW`. -/
theorem decodeRun_goes_on (j : Nat) {n k : Nat} (hn : o + k = n) (hBefore : n < instDone s.cfg)
    (hStart : line (instResample s.cfg) = .low) (hStop : instStop s.cfg ≤ n → line (instStop s.cfg) = .high)
    (hTaken : SamplesTaken s.cfg line o w p st) :
    ∃ w' p' st' pend' prev', SamplesTaken s.cfg line n w' p' st' ∧
      decodeRun line (o + 1) (k + j) (s.decodeAt o w p st pend prev) =
        decodeRun line (n + 1) j (s.decodeAt n w' p' st' pend' prev') := by
  induction k generalizing o w p st pend prev with
  | zero =>
    subst hn
    exact ⟨w, p, st, pend, prev, hTaken, by rw [Nat.zero_add]; rfl⟩
  | succ k ih =>
    have hLow : o + 1 = instResample s.cfg → line (o + 1) = .low := fun h => h ▸ hStart
    have hHigh : o + 1 = instStop s.cfg → line (o + 1) = .high := fun h => by rw [h]; exact hStop (by omega)
    obtain ⟨pend', hAct⟩ := decoderAct_goes_on (w := w) (p := p) (st := st) (pend := pend) (prev := prev) (by omega) hLow hHigh
    rw [Nat.add_right_comm k 1 j, decodeRun_succ hAct]
    exact ih (by omega) hTaken.next

/-- A decode that the line starts, and that no framing error ends before the last offset, ends after `s_done + 1` ticks in what `Complete` answers
on the line's levels at the sampling instants (R180 to R192). -/
theorem decodeRun_decodeTicks {v : Slot} (hc : s.cfg.wellFormed = true) (hIdle : s.dseq = .idle) (hArmed : s.armed = true)
    (hPerr : s.perr = false) (hPrev : s.rxPrev = .high) (hEdge : line 0 = .low) (hStart : line (instResample s.cfg) = .low)
    (hStop : instStop s.cfg < instDone s.cfg → line (instStop s.cfg) = .high)
    (hBits : ∀ k, k < 7 → v.getLsbD k = bitOfRxLevel (line (instData s.cfg k))) :
    ∃ o w p st pend prev, decodeRun line 0 (decodeTicks s.cfg) s =
      endingTick (endingDecode (complete (s.decodeAt o w p st pend prev) v (line (instParity s.cfg)) (line (instStop s.cfg))))
        (line (instDone s.cfg)) := by
  obtain ⟨hFirst, hOrder⟩ := instStop_bounds hc
  obtain ⟨n, hn⟩ : ∃ n, instDone s.cfg = n + 1 := Nat.exists_eq_succ_of_ne_zero (by omega)
  have hEnter : decoderAct (line 0) s = .next s.startDecode := by rw [hEdge, decoderAct_starts hIdle hArmed hPerr hPrev]
  obtain ⟨w, p, st, pend, prev, hTaken, hGoesOn⟩ := decodeRun_goes_on (s := s) (line := line) (w := 0#7) (p := .low)
    (st := .low) (pend := false) (prev := line 0) 1 (Nat.zero_add n) (by omega) hStart (fun h => hStop (by omega)) (samplesTaken_zero hc)
  obtain ⟨pend', hLast⟩ := decoderAct_last (rx := line (n + 1)) (w := w) (p := p) (st := st) (pend := pend) (prev := prev) hn.symm
    (fun h => h ▸ hStart)
  have hTakenAll := hTaken.next
  rw [← hn] at hTakenAll
  refine ⟨n, w, p, st, pend', prev, ?_⟩
  calc decodeRun line 0 (decodeTicks s.cfg) s
      = decodeRun line 1 (n + 1) (s.decodeAt 0 0#7 .low .low false (line 0)) := by rw [decodeTicks, hn, decodeRun_succ hEnter]; rfl
    _ = endingTick (decoderAct (line (n + 1)) (s.decodeAt n w p st pend prev)) (line (n + 1)) := by rw [hGoesOn, decodeRun_one]
    _ = _ := by rw [hLast, ← hn, hTakenAll.complete_eq (s := s.decodeAt n w p st pend' prev) hc rfl hBits]

end Sys2Proof.Machine
end

section
/-!
PROOFS. The loop-back (41_transmit.md R163; 42_receive.md R188, R196, R197): the level of a frame in each of its slots, what a fitting schedule
samples of it, and what the decode of it answers.
-/

namespace Sys2Proof.Machine

variable {o : Nat} {s : State} {c : Cfg} {b : Byte}

/-! ### The line of a looped-back frame -/

/-- A waveform of equal segments has in slot `j` the level of segment `j` (R197). -/
theorem waveLevel_of_inSlot {n j : Nat} {segs : List Segment} (hTicks : ∀ g ∈ segs, g.ticks = n) (hSlot : inSlot n 1 j o = true) :
    waveLevel segs o = segs[j]?.map (·.level) := by
  induction segs generalizing j o with
  | nil => rfl
  | cons g rest ih =>
    have hFirst : g.ticks = n := hTicks g List.mem_cons_self
    simp only [inSlot, Bool.and_eq_true, decide_eq_true_eq, Nat.mul_one] at hSlot
    obtain ⟨hFrom, hTo⟩ := hSlot
    cases j with
    | zero =>
      rw [waveLevel, if_pos (by omega)]
      rfl
    | succ j =>
      rw [Nat.succ_mul] at hFrom hTo
      have hRest : inSlot n 1 j (o - n) = true := by
        simp only [inSlot, Bool.and_eq_true, decide_eq_true_eq, Nat.mul_one]
        omega
      rw [waveLevel, if_neg (by omega), hFirst, ih (fun x hx => hTicks x (List.mem_cons_of_mem _ hx)) hRest]
      rfl

/-- In the slot of a segment of the frame the looped-back line is the opposite of the segment's level (R196). -/
theorem loopback_of_inSlot {j : Nat} {g : Segment} (hSeg : (frameSegs c b)[j]? = some g) (hSlot : inSlot c.tBitTx 1 j o = true) :
    loopback c b o = g.level.flip := by
  rw [loopback, waveLevel_of_inSlot (fun _ => ticks_of_mem_frameSegs) hSlot, hSeg]
  rfl

theorem loopback_start (hSlot : inSlot c.tBitTx 1 0 o = true) : loopback c b o = .low :=
  loopback_of_inSlot (g := ⟨.high, c.tBitTx⟩) rfl hSlot

theorem loopback_stop (hSlot : inSlot c.tBitTx 1 9 o = true) : loopback c b o = c.txStopLevel.flip :=
  loopback_of_inSlot (g := ⟨c.txStopLevel, c.tBitTx⟩) rfl hSlot

/-- Encoder and decoder agree on the level of a digit (R25). -/
theorem bitOfRxLevel_flip_txLevelOfBit (d : Bool) : bitOfRxLevel (txLevelOfBit d).flip = d := by
  cases d <;> rfl

/-- The digit read in slot `k + 1` is bit `k` of the byte sent; for `k = 7` it is the parity slot. -/
theorem bitOfRxLevel_loopback {k : Nat} (hk : k < 8) (hSlot : inSlot c.tBitTx 1 (k + 1) o = true) :
    bitOfRxLevel (loopback c b o) = (txByte c.txBit7Mode b).getLsbD k := by
  rw [loopback_of_inSlot (frameSegs_data c b hk) hSlot, bitOfRxLevel_flip_txLevelOfBit]

/-- A fitting schedule takes each sample in its own bit's slot (R197). -/
theorem fitsPeriod_iff {num den : Nat} :
    fitsPeriod c num den = true ↔
      inSlot num den 0 (instResample c) = true ∧ (∀ k, k < 7 → inSlot num den (k + 1) (instData c k) = true) ∧
        inSlot num den 9 (instStop c) = true ∧ (c.parityMode = .gated → inSlot num den 8 (instParity c) = true) := by
  cases hMode : c.parityMode <;> simp [fitsPeriod, hMode, and_assoc]

/-- A fitting schedule samples the parity before the stop bit, so its decode ends at the stop sample. -/
theorem instDone_of_fitsPeriod {num : Nat} (hFit : fitsPeriod c num 1 = true) : instDone c = instStop c := by
  obtain ⟨-, -, hStop, hParity⟩ := fitsPeriod_iff.1 hFit
  cases hMode : c.parityMode with
  | unconditional => simp [instDone, hMode]
  | gated =>
    have hOrder : instParity c ≤ instStop c := by
      have hBefore := hParity hMode
      simp only [inSlot, Bool.and_eq_true, decide_eq_true_eq, Nat.mul_one] at hBefore hStop
      omega
    simp [instDone, hMode, hOrder]

/-- The parity slot matches the seven bits received exactly when the byte was sent with even parity (R188). -/
theorem parityMatches_iff {p : Level} (hDigit : bitOfRxLevel p = (txByte c.txBit7Mode b).getLsbD 7) :
    parityMatches (b.setWidth 7) p = true ↔ parity8 (txByte c.txBit7Mode b) = false := by
  rw [parityMatches, hDigit, parity8_eq_lowSeven_xor (txByte _ b), lowSeven_eq_setWidth, setWidth_txByte]
  simp

/-! ### The outcome -/

/-- `Complete` enqueues the byte in `Gated` mode with a `HIGH` stop sample and the right parity, and otherwise fails (R188). -/
theorem complete_eq_ite {w : Slot} {p st : Level} :
    complete s w p st =
      if s.cfg.parityMode = .gated ∧ st = .high ∧ parityMatches w p = true then enqueue s w else .next s.fail := by
  cases st with
  | low => simp [complete_low]
  | high =>
    cases hMode : s.cfg.parityMode with
    | unconditional => simp [complete, rxOutcome, hMode]
    | gated => cases hMatch : parityMatches w p <;> simp [complete, rxOutcome, hMode, hMatch]

/-- `Enqueue` on a full buffer drops the byte (43_buffer.md R210). -/
theorem enqueue_of_full {v : Slot} (hHead : s.head < s.cfg.n) (hFull : advanceIndex s s.tail 1 = s.head) :
    enqueue s v = .next s.overflow := by
  simp [enqueue, hFull, Nat.not_le.2 hHead]

/-- What a schedule that fits the block's own bit period answers to the loop-back: `Complete` of the byte's low seven bits, the levels of its
parity and stop samples being those of their slots. -/
theorem decodeRun_loopback (hc : s.cfg.wellFormed = true) (hIdle : s.dseq = .idle) (hArmed : s.armed = true) (hPerr : s.perr = false)
    (hPrev : s.rxPrev = .high) (hFit : fitsPeriod s.cfg s.cfg.tBitTx 1 = true) :
    ∃ o w p st pend prev, decodeRun (loopback s.cfg b) 0 (decodeTicks s.cfg) s =
      endingTick (endingDecode
        (if s.cfg.parityMode = .gated ∧ s.cfg.txStopLevel = .low ∧ parity8 (txByte s.cfg.txBit7Mode b) = false then
          enqueue (s.decodeAt o w p st pend prev) (b.setWidth 7)
        else .next (s.decodeAt o w p st pend prev).fail)) (loopback s.cfg b (instDone s.cfg)) := by
  obtain ⟨hStart, hData, hStop, hParity⟩ := fitsPeriod_iff.1 hFit
  obtain ⟨-, -, -, hBit, -⟩ := (illFormedConfigurationIsRefused.1 s.cfg).1 hc
  have hEdge : inSlot s.cfg.tBitTx 1 0 0 = true := by
    simp [inSlot]
    omega
  have hBits : ∀ k, k < 7 → (b.setWidth 7).getLsbD k = bitOfRxLevel (loopback s.cfg b (instData s.cfg k)) := fun k hk => by
    rw [bitOfRxLevel_loopback (by omega) (hData k hk), ← setWidth_txByte s.cfg.txBit7Mode b, BitVec.getLsbD_setWidth]
    simp [hk]
  obtain ⟨o, w, p, st, pend, prev, hRun⟩ := decodeRun_decodeTicks hc hIdle hArmed hPerr hPrev (loopback_start hEdge)
    (loopback_start hStart) (fun h => absurd h (by rw [instDone_of_fitsPeriod hFit]; omega)) hBits
  refine ⟨o, w, p, st, pend, prev, ?_⟩
  have hOutcome : (s.cfg.parityMode = .gated ∧ loopback s.cfg b (instStop s.cfg) = .high ∧
        parityMatches (b.setWidth 7) (loopback s.cfg b (instParity s.cfg)) = true) ↔
      (s.cfg.parityMode = .gated ∧ s.cfg.txStopLevel = .low ∧ parity8 (txByte s.cfg.txBit7Mode b) = false) := by
    refine and_congr_right fun hGated => and_congr ?_ (parityMatches_iff (bitOfRxLevel_loopback (by omega) (hParity hGated)))
    rw [loopback_stop hStop]
    cases s.cfg.txStopLevel <;> simp [Level.flip]
  rw [hRun, complete_eq_ite]
  simp only [State.decodeAt_cfg, hOutcome]

/-- Settles O45: the samples of the loop-back are the digits sent, so `Complete` decides as the byte sent has it (`decodeRun_loopback`). -/
theorem loopbackStoresTheByte : Obligations.LoopbackStoresTheByte := by
  unfold Obligations.LoopbackStoresTheByte
  rintro s b hc ⟨-, hTail, -⟩ hHead hIdle hArmed hPerr hPrev hFit
  refine ⟨parity8_txByte_of_lt _, ?_⟩
  obtain ⟨o, w, p, st, pend, prev, hRun⟩ := decodeRun_loopback (b := b) hc hIdle hArmed hPerr hPrev hFit
  by_cases hSent : s.cfg.parityMode = .gated ∧ s.cfg.txStopLevel = .low ∧ parity8 (txByte s.cfg.txBit7Mode b) = false
  · simp only [if_pos hSent] at hRun ⊢
    by_cases hFull : (s.tail + 1) % s.cfg.n = s.head
    · rw [enqueue_of_full (s := s.decodeAt o w p st pend prev) hHead hFull] at hRun
      refine ⟨_, hRun, rfl, rfl, hPerr, rfl, hArmed, ?_⟩
      rw [if_pos hFull]
      exact ⟨rfl, rfl, rfl⟩
    · rw [enqueue_of_not_full (s := s.decodeAt o w p st pend prev) _ hHead hTail hFull] at hRun
      refine ⟨_, hRun, rfl, rfl, hPerr, rfl, hArmed, ?_⟩
      rw [if_neg hFull]
      exact ⟨rfl, rfl, slotAt_slotPut_same _ _ _⟩
  · simp only [if_neg hSent] at hRun ⊢
    exact ⟨_, hRun, rfl, rfl, rfl, rfl, rfl, rfl, rfl, rfl⟩

end Sys2Proof.Machine
end

section
/-!
PROOFS. The sampling instants of the receive decoder (42_receive.md R183) and the incoming bit periods they fit (R197).
-/

namespace Sys2Proof.Machine

variable {cfg : Cfg}

/-! ### The sampling instants (R183) -/

/-- In a well-formed block a decode samples in order: the start bit, the data bits, then parity and stop, and the outcome is not before the stop. -/
theorem instants_ordered (hc : cfg.wellFormed = true) :
    (∀ k, instResample cfg < instData cfg k) ∧ instData cfg 6 < instParity cfg ∧ instData cfg 6 < instStop cfg ∧
      instStop cfg ≤ instDone cfg := by
  obtain ⟨-, -, -, -, -, -, hBit, hParGap, hStopGap, -⟩ := (illFormedConfigurationIsRefused.1 cfg).1 hc
  refine ⟨fun k => ?_, Nat.lt_add_of_pos_right hParGap, Nat.lt_add_of_pos_right hStopGap, (instStop_bounds hc).2⟩
  have hDelay : 0 < (k + 1) * cfg.rxSched.tRxBit := Nat.mul_pos k.succ_pos hBit
  simp only [instResample, instData]
  omega

/-- Each data bit is sampled after the one before it. -/
theorem instData_strictMono (hc : cfg.wellFormed = true) : StrictMono (instData cfg) := by
  obtain ⟨-, -, -, -, -, -, hBit, -⟩ := (illFormedConfigurationIsRefused.1 cfg).1 hc
  refine strictMono_nat_of_lt_succ fun k => ?_
  simp only [instData, Nat.add_mul]
  omega

theorem instDone_of_gated (h : cfg.parityMode = .gated) : instDone cfg = max (instStop cfg) (instParity cfg) := by
  simp [instDone, h]

theorem instDone_of_unconditional (h : cfg.parityMode = .unconditional) : instDone cfg = instStop cfg := by
  simp [instDone, h]

/-- Settles O41: the formulas are the definitions, and the two tables their values. -/
theorem samplingInstants : Obligations.SamplingInstants := by
  unfold Obligations.SamplingInstants
  refine ⟨fun c => ⟨rfl, fun _ => rfl, rfl, rfl, instDone_of_gated, instDone_of_unconditional⟩, by decide, ?_⟩
  rintro _ rfl
  decide

/-! ### The periods a schedule fits (R197) -/

theorem inSlot_iff {num den j o : Nat} : inSlot num den j o = true ↔ j * num ≤ o * den ∧ o * den < (j + 1) * num := by
  simp [inSlot]

/-- CENTRE takes the sample of slot `j` at offset `403 + 805 j`. The last of them, `7648` in slot 9, bounds the period on both sides, and a
period within these bounds has every earlier one in its slot. -/
theorem inSlot_centre {num den j : Nat} (hj : j ≤ 9) (hAbove : 7648 * den < 10 * num) (hBelow : 9 * num ≤ 7648 * den) :
    inSlot num den j (403 + 805 * j) = true := by
  rw [inSlot_iff]
  interval_cases j <;> omega

theorem instData_defaultCfg (k : Nat) : instData defaultCfg k = 403 + 805 * (k + 1) := by
  rw [Nat.mul_comm 805]
  rfl

/-- The stop sample bounds the periods that CENTRE fits on both sides. -/
theorem fitsPeriod_centre {num den : Nat} (hDen : 0 < den) :
    fitsPeriod defaultCfg num den = true ↔ 7648 * den < 10 * num ∧ 9 * num ≤ 7648 * den := by
  rw [fitsPeriod_iff]
  constructor
  · rintro ⟨-, -, hStop, -⟩
    exact (inSlot_iff.1 hStop).symm
  · rintro ⟨hAbove, hBelow⟩
    refine ⟨?_, fun k hk => ?_, inSlot_centre (by omega) hAbove hBelow, fun _ => inSlot_centre (by omega) hAbove hBelow⟩
    · rw [inSlot_iff, show instResample defaultCfg = 1 from rfl]
      omega
    · rw [instData_defaultCfg]
      exact inSlot_centre (by omega) hAbove hBelow

/-- DOC fits no period: its sample of data bit 6 is at `5621`, and its stop sample, two slots later, already at `6271`. -/
theorem fitsPeriod_doc (num den : Nat) : fitsPeriod { defaultCfg with rxSched := schedDoc } num den = false := by
  refine Bool.eq_false_iff.2 fun hFits => ?_
  obtain ⟨-, hData, hStop, -⟩ := fitsPeriod_iff.1 hFits
  obtain ⟨-, hBitSix⟩ : _ ∧ 5621 * den < 8 * num := inSlot_iff.1 (hData 6 (by omega))
  obtain ⟨hSlotNine, -⟩ : 9 * num ≤ 6271 * den ∧ _ := inSlot_iff.1 hStop
  omega

/-- Settles O42: for CENTRE the stop sample decides; for DOC data bit 6 and the stop bit exclude each other. -/
theorem schedulesFitPeriods : Obligations.SchedulesFitPeriods := by
  unfold Obligations.SchedulesFitPeriods
  exact fun num den hDen => ⟨fitsPeriod_centre hDen, fitsPeriod_doc num den⟩

end Sys2Proof.Machine
end

section
/-!
PROOFS. One act of the receive decoder (42_receive.md): the trigger (R181, R182, R193), an offset of a decode (R184 to R186), failure and outcome (R188
to R190), and that a decode does not read the line state (R194).
-/

namespace Sys2Proof.Machine

variable {rx : Level} {c : Nat} {w : Slot} {p st : Level} {s t : State} {cfg : Cfg}

/-! ### The trigger (R181, R182, R193) -/

theorem fallingEdge_iff : fallingEdge s rx = true ↔ s.rxPrev = .high ∧ rx = .low := by
  simp [fallingEdge]

/-- The idle branch of R180, by its conditions. -/
theorem decoderIdle_eq_ite (rx : Level) (s : State) :
    decoderIdle rx s =
      if s.armed = false then s.refuseEdge
      else if (s.rxPrev = .high ∧ rx = .low) ∨ s.edgePend = true then
        if s.perr = true then s.refuseEdge else s.startDecode
      else s := by
  have hNone : (fallingEdge s rx = false ∧ s.edgePend = false) ↔ ¬((s.rxPrev = .high ∧ rx = .low) ∨ s.edgePend = true) := by
    rw [← fallingEdge_iff]
    simp
  simp only [decoderIdle, hNone, ite_not]

theorem decoderAct_idle (hIdle : s.dseq = .idle) : decoderAct rx s = .next (decoderIdle rx s) := by
  simp [decoderAct, hIdle]

/-- Disarmed, the idle decoder only drops a latched edge (R180). -/
theorem decoderAct_disarmed (hIdle : s.dseq = .idle) (hArmed : s.armed = false) : decoderAct rx s = .next s.refuseEdge := by
  rw [decoderAct_idle hIdle, decoderIdle_eq_ite, if_pos hArmed]

theorem decoderAct_busy (hBusy : s.dseq = .busy c w p st) :
    decoderAct rx s = decoderOffset rx (c + 1) w p st (s.latchEdge rx) := by
  simp [decoderAct, hBusy]

/-- From `Busy` the act ends the decode or takes it to the next offset, and what it does to the pending edge is the latch (R193). -/
theorem decoderAct_busy_keeps (hBusy : s.dseq = .busy c w p st) (h : decoderAct rx s = .next t) :
    (t.dseq = .idle ∨ ∃ w' p' st', t.dseq = .busy (c + 1) w' p' st') ∧ t.edgePend = (s.latchEdge rx).edgePend := by
  rcases decoderAct_cases h with ⟨hIdle, -⟩ | ⟨c', w', p', st', hBusy', rfl | rfl | ⟨v, u, hu, rfl⟩ | ⟨w', p', st', rfl, -⟩⟩
  · rw [hBusy] at hIdle
    cases hIdle
  · exact ⟨.inl rfl, rfl⟩
  · exact ⟨.inl rfl, rfl⟩
  · obtain ⟨-, ⟨-, rfl⟩ | ⟨-, -, rfl⟩⟩ := enqueue_cases hu
    · exact ⟨.inl rfl, rfl⟩
    · exact ⟨.inl rfl, rfl⟩
  · rw [hBusy] at hBusy'
    cases hBusy'
    exact ⟨.inr ⟨w', p', st', rfl⟩, rfl⟩

theorem latchEdge_edgePend_iff :
    (s.latchEdge rx).edgePend = true ↔ s.edgePend = true ∨ (s.rxPrev = .high ∧ rx = .low ∧ s.cfg.edgeLatch = true) := by
  simp [fallingEdge_iff, and_assoc]

/-- Settles O36: the idle branch by its conditions, and the one operation of the busy branch that touches the pending edge. -/
theorem decoderTrigger : Obligations.DecoderTrigger := by
  unfold Obligations.DecoderTrigger
  constructor
  · intro s rx hIdle
    rw [decoderAct_idle hIdle, decoderIdle_eq_ite]
    rfl
  · intro s t rx c w p st hBusy h
    obtain ⟨hSeq, hPend⟩ := decoderAct_busy_keeps hBusy h
    exact ⟨hSeq, hPend ▸ latchEdge_edgePend_iff⟩

/-! ### An offset of a decode (R184 to R186) -/

/-- An offset of no data bit leaves the working byte. -/
theorem sampleData_eq_self (h : ∀ k, k < 7 → c ≠ instData cfg k) : sampleData cfg c rx w = w :=
  BitVec.eq_of_getLsbD_eq fun k hk => by rw [getLsbD_sampleData hk, if_neg (h k hk)]

/-- Up to the last data bit the decode takes data samples only and goes on, unless it re-samples the start bit as `HIGH`. -/
theorem decoderAct_data (hc : s.cfg.wellFormed = true) (hBusy : s.dseq = .busy c w p st) (hData : c + 1 ≤ instData s.cfg 6)
    (hStart : c + 1 = instResample s.cfg → rx = .low) :
    decoderAct rx s = .next ((s.latchEdge rx).decoding (c + 1) (sampleData s.cfg (c + 1) rx w) p st) := by
  obtain ⟨-, hParity, hStop, hDone⟩ := instants_ordered hc
  have hNoStop : c + 1 ≠ instStop s.cfg := by omega
  have hNoParity : c + 1 ≠ instParity s.cfg := by omega
  rw [decoderAct_busy hBusy, decoderOffset_goes_on (s := s.latchEdge rx) (by show _ ≠ instDone s.cfg; omega) hStart
    fun h => absurd h hNoStop]
  simp [sampleParity, sampleStop, hNoParity, hNoStop]

/-- A `HIGH` line latches no edge. -/
theorem latchEdge_high (s : State) : s.latchEdge .high = s := by
  have hNoEdge : fallingEdge s .high = false := by simp [fallingEdge]
  simp [State.latchEdge, hNoEdge]

/-- Settles O37: `HIGH` is the first branch of the offset; with `LOW` no sample is due at `s_RS`. -/
theorem spuriousEdgeEndsTheDecode : Obligations.SpuriousEdgeEndsTheDecode := by
  unfold Obligations.SpuriousEdgeEndsTheDecode
  intro s c w p st hc hBusy hAt
  obtain ⟨hAfter, -⟩ := instants_ordered hc
  replace hAt : c + 1 = instResample s.cfg := hAt
  constructor
  · rw [decoderAct_busy hBusy, latchEdge_high]
    simp [decoderOffset, hAt, State.endDecode]
  · have hNoData : sampleData s.cfg (c + 1) .low w = w := sampleData_eq_self fun k _ => hAt ▸ (hAfter k).ne
    refine ⟨(s.latchEdge .low).edgePend, ?_⟩
    rw [decoderAct_data hc hBusy (hAt ▸ (hAfter 6).le) fun _ => rfl, hNoData]
    rfl

theorem bitOfRxLevel_eq_decide (l : Level) : bitOfRxLevel l = decide (l = .high) := by
  cases l <;> rfl

/-- Settles O38: `s_D(k)` is the instant of bit `k` alone, and `getLsbD_sampleData` says what it does to each bit. -/
theorem dataBitSampled : Obligations.DataBitSampled := by
  unfold Obligations.DataBitSampled
  intro s rx c k w p st hc hBusy hk hAt
  obtain ⟨hAfter, -⟩ := instants_ordered hc
  have hMono : StrictMono (instData s.cfg) := instData_strictMono hc
  have hNotStart : c + 1 ≠ instResample s.cfg := hAt ▸ (hAfter k).ne'
  have hData : c + 1 ≤ instData s.cfg 6 := hAt ▸ hMono.monotone (Nat.le_of_lt_succ hk)
  refine ⟨_, _, decoderAct_data hc hBusy hData fun h => absurd h hNotStart, ?_, fun j hj hne => ?_⟩
  · rw [getLsbD_sampleData hk, if_pos hAt, bitOfRxLevel_eq_decide]
  · rw [getLsbD_sampleData hj, if_neg fun h => hne (hMono.injective (h.symm.trans hAt))]

/-! ### Failure and outcome (R188 to R190) -/

/-- A `LOW` line at `s_S` fails and ends the decode (R186, R189). -/
theorem decoderAct_framingError (hBusy : s.dseq = .busy c w p st) (hAt : c + 1 = instStop s.cfg) :
    decoderAct .low s = .next (s.latchEdge .low).fail.endDecode := by
  simp [decoderAct_busy hBusy, decoderOffset, hAt]

/-- The registers `Fail` writes (R189, R190). -/
theorem fail_eq (s : State) :
    s.fail =
      { s with
        perr := true
        lineState := .disabled
        armed := false
        rxEn := false
        txEn := decide (s.cfg.disabledTxEnable = .active) } := by
  simp [State.fail, State.setState, txEnOf, rxEnOf, beq_eq_decide]

/-- Settles O39: `Fail` by its registers, and the framing error as `Fail` after the latch. -/
theorem framingErrorFails : Obligations.FramingErrorFails := by
  unfold Obligations.FramingErrorFails
  refine ⟨fail_eq, fun s c w p st hBusy hAt => ?_⟩
  rw [decoderAct_framingError hBusy hAt, fail_eq]
  simp [State.latchEdge, State.endDecode, fallingEdge, beq_eq_decide]

/-- The `Gated` outcome of a decode with a `HIGH` stop sample (R188). -/
theorem rxOutcome_gated_high (w : Slot) (p : Level) :
    rxOutcome .gated w p .high = if parity8 (w.setWidth 8) ≠ decide (p = .high) then .parityFault else .byte w := by
  simp [rxOutcome, parityMatches, bitOfRxLevel_eq_decide]

/-- Settles O40: each branch of the outcome function, and `Complete` by definition. -/
theorem outcomeFunction : Obligations.OutcomeFunction := by
  unfold Obligations.OutcomeFunction
  exact ⟨fun _ _ _ => rfl, fun _ _ => rfl, rxOutcome_gated_high, fun _ _ _ _ => rfl⟩

theorem complete_of_byte {v : Slot} (h : rxOutcome s.cfg.parityMode w p st = .byte v) : complete s w p st = enqueue s v := by
  simp [complete, h]

theorem complete_of_ne_byte (h : ∀ v, rxOutcome s.cfg.parityMode w p st ≠ .byte v) : complete s w p st = .next s.fail := by
  cases hOut : rxOutcome s.cfg.parityMode w p st with
  | byte v => exact absurd hOut (h v)
  | framingError | parityFault => simp [complete, hOut]

/-! ### The line state (R194) -/

/-- `s` with `ARMED` and `LINE_STATE` changed. -/
@[simps]
def State.withLineState (s : State) (a : Bool) (ls : LineState) : State := { s with armed := a, lineState := ls }

variable {a : Bool} {ls : LineState}

/-- From `s` the act does the same with `ARMED` and `LINE_STATE` changed: it leaves both as they were, and then its result differs in them alone, or
it forces Disabled, and then its result is the same. -/
def IgnoresLineState (a : Bool) (ls : LineState) (act : State → Result) (s : State) : Prop :=
  ∀ t, act s = .next t →
    (t.lineState = s.lineState ∧ t.armed = s.armed ∧ act (s.withLineState a ls) = .next (t.withLineState a ls)) ∨
      (t.lineState = .disabled ∧ t.armed = false ∧ act (s.withLineState a ls) = .next t)

/-- The forced disable overwrites both registers (R190). -/
theorem fail_ignoresLineState : IgnoresLineState a ls (fun u => .next u.fail) s := by
  rintro t ⟨⟩
  exact .inr ⟨rfl, rfl, rfl⟩

theorem enqueue_ignoresLineState {v : Slot} : IgnoresLineState a ls (fun u => enqueue u v) s := by
  intro t h
  obtain ⟨hHead, ⟨hFull, rfl⟩ | ⟨hFull, hTail, rfl⟩⟩ := enqueue_cases h
  · exact .inl ⟨rfl, rfl, enqueue_of_full (s := s.withLineState a ls) hHead hFull⟩
  · exact .inl ⟨rfl, rfl, enqueue_of_not_full (s := s.withLineState a ls) v hHead hTail hFull⟩

/-- The outcome reads the samples alone (R188). -/
theorem complete_ignoresLineState : IgnoresLineState a ls (fun u => complete u w p st) s := by
  unfold IgnoresLineState
  simp only [complete, State.withLineState_cfg]
  cases rxOutcome s.cfg.parityMode w p st with
  | framingError | parityFault => exact fail_ignoresLineState
  | byte v => exact enqueue_ignoresLineState

/-- The end of a decode is not a write of the line state. -/
theorem IgnoresLineState.endingDecode {act : State → Result} (h : IgnoresLineState a ls act s) :
    IgnoresLineState a ls (fun u => endingDecode (act u)) s := by
  intro t ht
  obtain ⟨u, hu, rfl⟩ := endingDecode_next ht
  rcases h u hu with ⟨hState, hArmed, hSame⟩ | ⟨hState, hArmed, hSame⟩
  · exact .inl ⟨hState, hArmed, by simp only [hSame]; rfl⟩
  · exact .inr ⟨hState, hArmed, by simp only [hSame]; rfl⟩

theorem finishOffset_ignoresLineState : IgnoresLineState a ls (finishOffset c w p st) s := by
  unfold IgnoresLineState
  simp only [finishOffset, State.withLineState_cfg]
  by_cases hLast : c = instDone s.cfg
  · simp only [if_pos hLast]
    exact complete_ignoresLineState.endingDecode
  · simp only [if_neg hLast]
    rintro t ⟨⟩
    exact .inl ⟨rfl, rfl, rfl⟩

theorem decoderOffset_ignoresLineState : IgnoresLineState a ls (decoderOffset rx c w p st) s := by
  unfold IgnoresLineState
  simp only [decoderOffset, State.withLineState_cfg]
  split
  · rintro t ⟨⟩
    exact .inl ⟨rfl, rfl, rfl⟩
  · split
    · split
      · exact fail_ignoresLineState.endingDecode
      · exact finishOffset_ignoresLineState
    · exact finishOffset_ignoresLineState

/-- Settles O43: the act in `Busy` is an offset, and each branch of one ignores the line state. -/
theorem decodeIgnoresTheLineState : Obligations.DecodeIgnoresTheLineState := by
  unfold Obligations.DecodeIgnoresTheLineState
  intro s t rx c w p st a ls hBusy h
  rw [decoderAct_busy hBusy] at h
  have hChanged : decoderAct rx (s.withLineState a ls) =
      decoderOffset rx (c + 1) w p st ((s.latchEdge rx).withLineState a ls) := decoderAct_busy (s := s.withLineState a ls) hBusy
  rcases decoderOffset_ignoresLineState (a := a) (ls := ls) t h with ⟨hState, hArmed, hSame⟩ | ⟨hState, hArmed, hSame⟩
  · exact ⟨_, hChanged.trans hSame, rfl, .inl ⟨hState, hArmed, rfl, rfl⟩⟩
  · exact ⟨_, hChanged.trans hSame, rfl, .inr ⟨hState, hArmed, hState, hArmed⟩⟩

end Sys2Proof.Machine
end

section
/-!
PROOFS. The receive decoder over many ticks: a whole decode, with an early framing error (42_receive.md R180 to R192), and reception halted by `PERR`
(R181; 60_exceptions.md R245).
-/

namespace Sys2Proof.Machine

variable {rx : Level} {o : Nat} {w : Slot} {s t : State} {line : Nat → Level} {io : TickIn}

/-! ### A whole decode (R180 to R192) -/

/-- `s` with the decoder idle, and the two registers that the line moves. -/
@[simps]
def State.idleAt (s : State) (pend : Bool) (prev : Level) : State :=
  { s with dseq := .idle, edgePend := pend, rxPrev := prev }

variable {pend : Bool} {prev : Level}

/-- An idle decoder on a disarmed bus does nothing, whatever the line does (R180). -/
theorem decodeRun_disarmed (k : Nat) (hArmed : s.armed = false) :
    ∃ pend' prev', decodeRun line o k (s.idleAt pend prev) = .next (s.idleAt pend' prev') := by
  induction k generalizing o pend prev with
  | zero => exact ⟨pend, prev, rfl⟩
  | succ k ih =>
    have hAct : decoderAct (line o) (s.idleAt pend prev) = .next (s.idleAt pend prev).refuseEdge := decoderAct_disarmed rfl hArmed
    rw [decodeRun_succ hAct]
    exact ih

/-- A `LOW` stop sample before the last offset fails there, and the rest of the ticks find the bus disarmed (R186, R189). -/
theorem decodeRun_framingError (hc : s.cfg.wellFormed = true) (hIdle : s.dseq = .idle) (hArmed : s.armed = true)
    (hPerr : s.perr = false) (hPrev : s.rxPrev = .high) (hEdge : line 0 = .low) (hStart : line (instResample s.cfg) = .low)
    (hEarly : instStop s.cfg < instDone s.cfg) (hStop : line (instStop s.cfg) = .low) :
    ∃ pend prev, decodeRun line 0 (decodeTicks s.cfg) s = .next (s.fail.idleAt pend prev) := by
  obtain ⟨n, hn⟩ : ∃ n, instStop s.cfg = n + 1 := Nat.exists_eq_succ_of_ne_zero (instStop_bounds hc).1.ne'
  obtain ⟨m, hm⟩ : ∃ m, instDone s.cfg = n + (m + 1) := ⟨instDone s.cfg - (n + 1), by omega⟩
  have hEnter : decoderAct (line 0) s = .next s.startDecode := by rw [hEdge, decoderAct_starts hIdle hArmed hPerr hPrev]
  obtain ⟨w, p, st, pend, prev, -, hGoesOn⟩ := decodeRun_goes_on (s := s) (line := line) (w := 0#7) (p := .low) (st := .low)
    (pend := false) (prev := line 0) (m + 1) (Nat.zero_add n) (by omega) hStart (fun h => by omega) (samplesTaken_zero hc)
  have hFails : decoderAct (line (n + 1)) (s.decodeAt n w p st pend prev) =
      .next ((s.decodeAt n w p st pend prev).latchEdge .low).fail.endDecode := by
    rw [← hn, hStop]
    exact decoderAct_framingError rfl hn.symm
  obtain ⟨pend', prev', hRest⟩ := decodeRun_disarmed (s := s.fail) (line := line) (o := n + 2)
    (pend := ((s.decodeAt n w p st pend prev).latchEdge .low).edgePend) (prev := line (n + 1)) m rfl
  refine ⟨pend', prev', ?_⟩
  calc decodeRun line 0 (decodeTicks s.cfg) s
      = decodeRun line 1 (n + (m + 1)) (s.decodeAt 0 0#7 .low .low false (line 0)) := by
        rw [decodeTicks, hm, decodeRun_succ hEnter]; rfl
    _ = decodeRun line (n + 1) (m + 1) (s.decodeAt n w p st pend prev) := hGoesOn
    _ = .next (s.fail.idleAt pend' prev') := by rw [decodeRun_succ hFails]; exact hRest

/-- A decode whose outcome is no byte leaves what `Fail` leaves, be it at the stop sample or at the last offset. -/
theorem decodeRun_of_ne_byte (hc : s.cfg.wellFormed = true) (hIdle : s.dseq = .idle) (hArmed : s.armed = true)
    (hPerr : s.perr = false) (hPrev : s.rxPrev = .high) (hEdge : line 0 = .low) (hStart : line (instResample s.cfg) = .low)
    (hBits : ∀ k, k < 7 → w.getLsbD k = bitOfRxLevel (line (instData s.cfg k)))
    (hOut : ∀ v, rxOutcome s.cfg.parityMode w (line (instParity s.cfg)) (line (instStop s.cfg)) ≠ .byte v) :
    ∃ pend prev, decodeRun line 0 (decodeTicks s.cfg) s = .next (s.fail.idleAt pend prev) := by
  by_cases hEarly : instStop s.cfg < instDone s.cfg ∧ line (instStop s.cfg) = .low
  · obtain ⟨hLt, hLow⟩ := hEarly
    exact decodeRun_framingError hc hIdle hArmed hPerr hPrev hEdge hStart hLt hLow
  · have hStop : instStop s.cfg < instDone s.cfg → line (instStop s.cfg) = .high := fun hLt => by
      cases hLevel : line (instStop s.cfg) with
      | low => exact absurd ⟨hLt, hLevel⟩ hEarly
      | high => rfl
    obtain ⟨o, w', p, st, pend, prev, hRun⟩ := decodeRun_decodeTicks hc hIdle hArmed hPerr hPrev hEdge hStart hStop hBits
    rw [complete_of_ne_byte (s := s.decodeAt o w' p st pend prev) hOut] at hRun
    exact ⟨pend, line (instDone s.cfg), hRun⟩

/-- Settles O44: by the outcome. A byte needs a `HIGH` stop sample, so its decode reaches the last offset and `Enqueue`; no byte is `Fail`. -/
theorem decodeFollowsTheSamples : Obligations.DecodeFollowsTheSamples := by
  unfold Obligations.DecodeFollowsTheSamples
  rintro s line w hc ⟨-, hTail, -⟩ hHead hIdle hArmed hPerr hPrev hEdge hStart hDigits
  have hBits : ∀ k, k < 7 → w.getLsbD k = bitOfRxLevel (line (instData s.cfg k)) := fun k hk => by
    rw [hDigits k hk, bitOfRxLevel_eq_decide]
  have hNoByte := decodeRun_of_ne_byte hc hIdle hArmed hPerr hPrev hEdge hStart hBits
  cases hOut : rxOutcome s.cfg.parityMode w (line (instParity s.cfg)) (line (instStop s.cfg)) with
  | framingError | parityFault =>
    obtain ⟨pend, prev, hRun⟩ := hNoByte (by simp [hOut])
    exact ⟨_, hRun, rfl, rfl, rfl, rfl, rfl, rfl, rfl, rfl⟩
  | byte v =>
    obtain ⟨rfl, -, hStop, -⟩ := rxOutcome_byte hOut
    obtain ⟨o, w', p, st, pend, prev, hRun⟩ :=
      decodeRun_decodeTicks hc hIdle hArmed hPerr hPrev hEdge hStart (fun _ => hStop) hBits
    rw [complete_of_byte (s := s.decodeAt o w' p st pend prev) hOut] at hRun
    by_cases hFull : (s.tail + 1) % s.cfg.n = s.head
    · rw [enqueue_of_full (s := s.decodeAt o w' p st pend prev) hHead hFull] at hRun
      refine ⟨_, hRun, rfl, rfl, rfl, hPerr, rfl, hArmed, ?_⟩
      rw [if_pos hFull]
      exact ⟨rfl, rfl, rfl⟩
    · rw [enqueue_of_not_full (s := s.decodeAt o w' p st pend prev) _ hHead hTail hFull] at hRun
      refine ⟨_, hRun, rfl, rfl, rfl, hPerr, rfl, hArmed, ?_⟩
      rw [if_neg hFull]
      exact ⟨rfl, rfl, slotAt_slotPut_same _ _ _, fun a ha => slotAt_slotPut_other _ _ _ _ ha⟩

/-! ### Reception halted (R181, R245) -/

/-- `s` has the decoder halted by `PERR`, with the buffer's slots and `TAIL` of `s₀`. -/
def State.HaltedWith (s₀ s : State) : Prop := s.perr = true ∧ s.dseq = .idle ∧ s.tail = s₀.tail ∧ s.buf = s₀.buf

/-- The idle decoder with `PERR` set starts nothing: it keeps the state but for the edge it consumes (R181). -/
theorem decoderAct_haltedWith {s₀ : State} (h : decoderAct rx s = .next t) (hs : s₀.HaltedWith s) : s₀.HaltedWith t := by
  have ⟨hPerr, hIdle, _⟩ := hs
  rcases decoderAct_cases h with ⟨-, rfl | rfl | ⟨-, -, hClear⟩⟩ | ⟨c, w, p, st, hBusy, -⟩
  · exact hs
  · exact hs
  · rw [hPerr] at hClear
    cases hClear
  · rw [hIdle] at hBusy
    cases hBusy

/-- Of the host's commands only `FLUSH` and `BEGIN` end the halt, and only `FLUSH` moves `TAIL`. -/
theorem hostAct_haltedWith {s₀ : State} (hRst : io.rst = false) (hFlush : ¬accepts io s .flush) (hBegin : ¬accepts io s .beginRx)
    (h : hostAct io s = .next t) (hs : s₀.HaltedWith s) : s₀.HaltedWith t := by
  obtain ⟨hPerr, hIdle, hTail, hBuf⟩ := hs
  obtain ⟨hSameBuf, hSameSeq, -⟩ := hostAct_agreesOffHost h
  refine ⟨?_, hSameSeq.trans hIdle, ?_, hSameBuf.trans hBuf⟩
  · by_contra hClear
    rcases (hostAct_perr hRst h (hPerr ▸ hClear)).2 with hAcc | hAcc
    · exact hFlush hAcc
    · exact hBegin hAcc
  · by_contra hMoved
    exact hFlush (hostAct_tail hRst h (hTail ▸ hMoved)).2

/-- Settles O23: both agents' acts keep the halt. -/
theorem parityErrorHaltsReception : Obligations.ParityErrorHaltsReception := by
  unfold Obligations.ParityErrorHaltsReception
  intro s t h hPerr hIdle hRst hFlush hBegin
  exact step_keeps_without_reset (P := s.HaltedWith) h hRst ⟨hPerr, hIdle, rfl, rfl⟩
    (fun u v hPort hu hv =>
      hostAct_haltedWith hRst (mt (accepts_congr hPort).1 hFlush) (mt (accepts_congr hPort).1 hBegin) hv hu)
    (fun u v hu hv => decoderAct_haltedWith hv hu)

end Sys2Proof.Machine
end

section
/-!
PROOFS. The circular buffer as a queue (43_buffer.md R210, R211, R214, R221): `TAIL` stands the stored number of slots after `HEAD`, and each
operation on the indices is an operation on the list of the contents.
-/

namespace Sys2Proof.Machine

variable {s t : State}

/-! ### The number of stored bytes (R211) -/

theorem stored_lt (hHead : s.head < s.cfg.n) : s.stored < s.cfg.n := Nat.mod_lt _ (Nat.zero_lt_of_lt hHead)

/-- `TAIL` is `HEAD` advanced by the stored number. -/
theorem tail_eq_advanceIndex (hHead : s.head < s.cfg.n) (hTail : s.tail < s.cfg.n) :
    s.tail = advanceIndex s s.head s.stored := by
  have hSum : s.head + (s.tail + s.cfg.n - s.head) = s.tail + s.cfg.n := by omega
  rw [advanceIndex, State.stored, Nat.add_mod_mod, hSum, Nat.add_mod_right, Nat.mod_eq_of_lt hTail]

/-- Slots fewer than `N` places after one index are different slots. -/
theorem advanceIndex_inj {i j k : Nat} (hj : j < s.cfg.n) (hk : k < s.cfg.n) :
    advanceIndex s i j = advanceIndex s i k ↔ j = k := by
  refine ⟨fun h => ?_, congrArg _⟩
  have hMod : j ≡ k [MOD s.cfg.n] := Nat.ModEq.add_left_cancel' i h
  exact hMod.eq_of_lt_of_lt hj hk

/-- An index advanced twice is advanced by the sum. -/
theorem advanceIndex_advanceIndex (i j k : Nat) : advanceIndex s (advanceIndex s i j) k = advanceIndex s i (j + k) := by
  simp [advanceIndex, Nat.add_assoc]

/-- Advancing by 0 leaves an index below `N`. -/
theorem advanceIndex_zero {i : Nat} (hi : i < s.cfg.n) : advanceIndex s i 0 = i := Nat.mod_eq_of_lt hi

/-- The stored number is the one number below `N` by which `TAIL` stands after `HEAD`. -/
theorem stored_eq_of_tail {m : Nat} (hHead : s.head < s.cfg.n) (hTail : s.tail < s.cfg.n) (hm : m < s.cfg.n)
    (h : s.tail = advanceIndex s s.head m) : s.stored = m :=
  (advanceIndex_inj (stored_lt hHead) hm).1 ((tail_eq_advanceIndex hHead hTail).symm.trans h)

/-- The buffer is empty exactly when nothing is stored. -/
theorem stored_eq_zero_iff (hHead : s.head < s.cfg.n) (hTail : s.tail < s.cfg.n) : s.stored = 0 ↔ s.head = s.tail := by
  constructor
  · intro h
    rw [tail_eq_advanceIndex hHead hTail, h, advanceIndex_zero hHead]
  · intro h
    simp [State.stored, h]

/-- The buffer is full exactly when `N - 1` bytes are stored. -/
theorem full_iff_stored (hHead : s.head < s.cfg.n) (hTail : s.tail < s.cfg.n) :
    advanceIndex s s.tail 1 = s.head ↔ s.stored + 1 = s.cfg.n := by
  have hLt := stored_lt hHead
  rw [tail_eq_advanceIndex hHead hTail, advanceIndex_advanceIndex]
  rcases Nat.lt_or_ge (s.stored + 1) s.cfg.n with hRoom | hFull
  · nth_rewrite 2 [← advanceIndex_zero hHead]
    rw [advanceIndex_inj hRoom (by omega)]
    omega
  · have hEq : s.stored + 1 = s.cfg.n := by omega
    simp [advanceIndex, hEq, Nat.mod_eq_of_lt hHead]

/-! ### The contents (R221) -/

theorem length_contents (s : State) : s.contents.length = s.stored := by simp [State.contents]

/-- Below the stored number the contents are the slots from `HEAD` on. -/
theorem getElem?_contents {i : Nat} (hi : i < s.stored) : s.contents[i]? = some (slotAt s.buf (advanceIndex s s.head i)) := by
  simp [State.contents, advanceIndex, List.getElem?_range hi]

/-- With `HEAD` at `TAIL` there are no contents. -/
theorem contents_of_head_eq_tail (h : s.head = s.tail) : s.contents = [] := by simp [State.contents, State.stored, h]

/-- `HEAD` advanced by at most the stored number drops that many of the oldest bytes. -/
theorem contents_of_head_advanced {k : Nat} (hHead : s.head < s.cfg.n) (hTail : s.tail < s.cfg.n) (hk : k ≤ s.stored) :
    ({ s with head := advanceIndex s s.head k } : State).contents = s.contents.drop k := by
  have hLt := stored_lt hHead
  have hStored : ({ s with head := advanceIndex s s.head k } : State).stored = s.stored - k := by
    refine stored_eq_of_tail (advanceIndex_lt k hHead) hTail (show s.stored - k < s.cfg.n by omega) ?_
    change s.tail = advanceIndex s (advanceIndex s s.head k) (s.stored - k)
    rw [advanceIndex_advanceIndex, Nat.add_sub_cancel' hk, ← tail_eq_advanceIndex hHead hTail]
  refine List.ext_getElem (by simp [length_contents, hStored]) fun i hi _ => ?_
  simp [State.contents, advanceIndex, Nat.add_assoc]

theorem contents_pop (hHead : s.head < s.cfg.n) (hTail : s.tail < s.cfg.n) (hNonempty : s.head ≠ s.tail) :
    s.pop.contents = s.contents.drop 1 :=
  contents_of_head_advanced hHead hTail (Nat.pos_of_ne_zero (mt (stored_eq_zero_iff hHead hTail).1 hNonempty))

theorem contents_advanceHead {k : Nat} (hHead : s.head < s.cfg.n) (hTail : s.tail < s.cfg.n)
    (hWrap : s.cfg.advanceHeadWrap = true) (hk : k ≤ s.stored) : (s.advanceHead k).contents = s.contents.drop k := by
  rw [← contents_of_head_advanced hHead hTail hk, State.advanceHead, if_pos hWrap]

/-- A store into a buffer that is not full adds one to the stored number. -/
theorem stored_push (v : Slot) (hHead : s.head < s.cfg.n) (hTail : s.tail < s.cfg.n)
    (hRoom : advanceIndex s s.tail 1 ≠ s.head) : (s.push v).stored = s.stored + 1 := by
  have hLt := stored_lt hHead
  have hNotFull := mt (full_iff_stored hHead hTail).2 hRoom
  refine stored_eq_of_tail hHead (advanceIndex_lt 1 hTail) (show s.stored + 1 < s.cfg.n by omega) ?_
  change advanceIndex s s.tail 1 = advanceIndex s s.head (s.stored + 1)
  rw [← advanceIndex_advanceIndex, ← tail_eq_advanceIndex hHead hTail]

/-- A store into a buffer that is not full appends the byte: the slot at `TAIL` is none of the live ones. -/
theorem contents_push (v : Slot) (hHead : s.head < s.cfg.n) (hTail : s.tail < s.cfg.n)
    (hRoom : advanceIndex s s.tail 1 ≠ s.head) : (s.push v).contents = s.contents ++ [some v] := by
  have hLt := stored_lt hHead
  have hLive : ∀ i < s.stored, slotAt (slotPut s.buf s.tail v) (advanceIndex s s.head i) = slotAt s.buf (advanceIndex s s.head i) := by
    intro i hi
    refine slotAt_slotPut_other _ _ _ _ ?_
    rw [tail_eq_advanceIndex hHead hTail, Ne, advanceIndex_inj (by omega) hLt]
    omega
  have hNew : slotAt (slotPut s.buf s.tail v) (advanceIndex s s.head s.stored) = some v := by
    rw [← tail_eq_advanceIndex hHead hTail, slotAt_slotPut_same]
  rw [State.contents, stored_push v hHead hTail hRoom, List.range_succ, List.map_append]
  exact congrArg₂ _ (List.map_congr_left fun i hi => hLive i (List.mem_range.1 hi)) (congrArg (fun x => [x]) hNew)

/-- Where every live slot is written, the slot at any place below the stored number holds a value. -/
theorem exists_slotAt_of_liveWritten (hLive : s.LiveWritten) {i : Nat} (hi : i < s.stored) :
    ∃ v, slotAt s.buf (advanceIndex s s.head i) = some v := by
  refine Option.ne_none_iff_exists'.1 fun hNone => hLive (List.mem_of_getElem? (i := i) ?_)
  rw [getElem?_contents hi, hNone]

end Sys2Proof.Machine
end

section
/-!
PROOFS. Live slots stay written (43_buffer.md R221): the host's act only drops contents, and the decoder's act only appends written ones.
-/

namespace Sys2Proof.Machine

variable {i : Instr} {io : TickIn} {rx : Level} {s t : State}

/-- A command leaves the contents less some of the oldest bytes, if `ADVH` stays within the count. -/
theorem exec_contents (h : exec i s = .next t) (hHead : s.head < s.cfg.n) (hTail : s.tail < s.cfg.n)
    (hWrap : s.cfg.advanceHeadWrap = true) (hAdvH : ∀ n, i = .advH n → n.toNat ≤ s.stored) : t.contents <:+ s.contents := by
  obtain ⟨d, hd⟩ := exec_cases h
  rcases hd with ⟨rfl, -⟩ | ⟨ls, rfl, -⟩ | ⟨rfl, -⟩ | ⟨rfl, -⟩ | ⟨b, rfl, -⟩ | ⟨v, rfl, -⟩ | ⟨v, -, hNonempty, rfl, -⟩ |
    ⟨rfl, -⟩ | ⟨n, rfl, hi⟩
  · exact List.suffix_rfl
  · exact List.suffix_rfl
  · exact List.suffix_rfl
  · exact List.suffix_rfl
  · exact List.suffix_rfl
  · exact List.suffix_rfl
  · have hPop : ((s.pop.respond (byteResult v)).occupy d).contents = s.contents.drop 1 := contents_pop hHead hTail hNonempty
    exact hPop ▸ List.drop_suffix 1 _
  · have hEmpty : (s.emptyBuffer.occupy d).contents = [] := contents_of_head_eq_tail rfl
    exact hEmpty ▸ List.nil_suffix
  · have hDrop : ((s.advanceHead (argCount n)).occupy d).contents = s.contents.drop n.toNat :=
      contents_advanceHead hHead hTail hWrap (hAdvH n hi)
    exact hDrop ▸ List.drop_suffix _ _

/-- The host's act keeps every live slot written, if an accepted `ADVH` stays within the count. -/
theorem hostAct_liveWritten (h : hostAct io s = .next t) (hRst : io.rst = false) (hs : s.BufferInv)
    (hWrap : s.cfg.advanceHeadWrap = true) (hAdvH : ∀ n, accepts io s (.advH n) → n.toNat ≤ s.stored) (hLive : s.LiveWritten) :
    t.LiveWritten := by
  obtain ⟨-, hTail, hHead⟩ := hs
  rcases hostAct_cases h with ⟨-, rfl⟩ | ⟨hFree, hValid, i, hDecode, hi⟩ | ⟨-, -, -, rfl⟩ | ⟨-, -, rfl⟩
  · exact hLive
  · have hDropped : t.contents <:+ s.contents :=
      exec_contents (s := s.clearPulses) hi (hHead hWrap) hTail hWrap fun n hn => hAdvH n ⟨hRst, hFree, hValid, hn ▸ hDecode⟩
    exact fun hNone => hLive (hDropped.subset hNone)
  · exact hLive
  · exact hLive

/-- The decoder's act keeps every live slot written and removes nothing. -/
theorem decoderAct_liveWritten (h : decoderAct rx s = .next t) (hLive : s.LiveWritten) :
    t.LiveWritten ∧ s.stored ≤ t.stored := by
  refine decoderAct_keeps (P := fun u => u.LiveWritten ∧ s.stored ≤ u.stored) h ⟨hLive, le_rfl⟩
    (push := fun u v hHead hTail hRoom hu => ?_)
  obtain ⟨huLive, huStored⟩ := hu
  refine ⟨?_, ?_⟩
  · rw [State.LiveWritten, contents_push v hHead hTail hRoom]
    simpa using huLive
  · rw [stored_push v hHead hTail hRoom]
    omega

/-- Settles O19: by the order of the acts. The decoder first only adds to the count that bounds `ADVH`. -/
theorem stepKeepsLiveSlotsWritten : Obligations.StepKeepsLiveSlotsWritten := by
  unfold Obligations.StepKeepsLiveSlotsWritten
  intro s t hs hWrap hLive hAdvH h
  rcases Bool.eq_false_or_eq_true s.currentIn.rst with hRst | hRst
  · rw [step_with_reset h hRst, State.LiveWritten, contents_of_head_eq_tail rfl]
    exact List.not_mem_nil
  · obtain ⟨u, hu, rfl⟩ := step_without_reset h hRst
    change u.LiveWritten
    unfold agentsAct at hu
    split at hu
    · have hHost : ∀ v, hostAct s.currentIn s.advance.beginTick = .next v → v.LiveWritten :=
        fun v hv => hostAct_liveWritten hv hRst hs hWrap hAdvH hLive
      exact bothActs_keeps hu hLive (fun _ _ hv => hv) hHost
        fun v w hv hw => (decoderAct_liveWritten hw (hHost v hv)).1
    · refine bothActs_keeps hu hLive (fun _ _ hv => hv) (fun v hv => (decoderAct_liveWritten hv hLive).1) fun v w hv hw => ?_
      obtain ⟨hvLive, hStored⟩ := decoderAct_liveWritten hv hLive
      refine hostAct_liveWritten hw hRst (decoderAct_bufferInv hv hs) ?_ (fun n hAcc => ?_) hvLive
      · rw [decoderAct_cfg hv]
        exact hWrap
      · exact (hAdvH n ((accepts_congr (decoderAct_hrem hv)).1 hAcc)).trans hStored

end Sys2Proof.Machine
end

section
/-!
PROOFS. `Enqueue` and the buffer commands, one at a time (43_buffer.md R210 to R220). `PEEK` and `READ` share the read of the oldest byte, `ENDLF`
and `ENDCR` the test of a recent one.
-/

namespace Sys2Proof.Machine

variable {s : State}

/-! ### The storage and the count (R81, R211) -/

theorem bufRead_of_written {j : Nat} {v : Slot} (hj : j < s.cfg.n) (hSlot : slotAt s.buf j = some v) : bufRead s j = .ok v :=
  bufRead_ok_iff.2 ⟨hj, hSlot⟩

theorem bufRead_of_unwritten {j : Nat} (hj : j < s.cfg.n) (hSlot : slotAt s.buf j = none) :
    bufRead s j = .error (.uninitSlotRead j) :=
  bufRead_error_iff.2 (.inr ⟨hj, hSlot, rfl⟩)

theorem bufRead_beyond {j : Nat} (hj : s.cfg.n ≤ j) : bufRead s j = .error (.indexOutOfRange j) :=
  bufRead_error_iff.2 (.inl ⟨hj, rfl⟩)

theorem count_of_head_lt (hHead : s.head < s.cfg.n) : count s = .ok s.stored := count_ok_iff.2 ⟨hHead, rfl⟩

theorem count_beyond (hHead : s.cfg.n ≤ s.head) : count s = .error (.indexOutOfRange s.head) := count_error_iff.2 ⟨hHead, rfl⟩

/-! ### `Enqueue` (R210) -/

theorem enqueue_beyond (v : Slot) (hHead : s.cfg.n ≤ s.head) : enqueue s v = .fault (.indexOutOfRange s.head) := by
  simp [enqueue, hHead]

/-- Settles O46: the three branches, and the storage's read after a write. -/
theorem enqueueEffect : Obligations.EnqueueEffect := by
  unfold Obligations.EnqueueEffect
  exact fun s v => ⟨enqueue_beyond v, enqueue_of_full, fun hHead hRoom hTail =>
    ⟨_, enqueue_of_not_full v hHead hTail hRoom, slotAt_slotPut_same _ _ _, fun a => slotAt_slotPut_other _ _ a v⟩⟩

/-! ### `AVAIL` (R212) -/

theorem exec_avail_overflow (hOvf : s.ovf = true) : exec .avail s = .next (s.answer minusOne) := by
  simp [exec, execAvail, hOvf]

theorem exec_avail_count (hOvf : s.ovf = false) (hHead : s.head < s.cfg.n) :
    exec .avail s = .next (s.answer (countResult s.stored)) := by
  simp [exec, execAvail, hOvf, count_of_head_lt hHead]

theorem exec_avail_beyond (hOvf : s.ovf = false) (hHead : s.cfg.n ≤ s.head) :
    exec .avail s = .fault (.indexOutOfRange s.head) := by
  simp [exec, execAvail, hOvf, count_beyond hHead]

/-- A count that 16 bits hold is its own result (30_encoding.md R112). -/
theorem countResult_of_lt {n : Nat} (h : n < 65536) : countResult n = BitVec.ofNat 16 n := if_pos h

/-- Settles O47: under overflow the count is not taken. -/
theorem availCompletes : Obligations.AvailCompletes := by
  unfold Obligations.AvailCompletes
  exact ⟨rfl, fun s => ⟨exec_avail_overflow, fun hOvf hHead => ⟨_, exec_avail_count hOvf hHead, countResult_of_lt⟩,
    exec_avail_beyond⟩⟩

/-! ### `PEEK` and `READ` (R213, R214) -/

/-- What `PEEK` and `READ` share: −1 on an empty buffer, and otherwise the state `k` leaves for the byte in slot `HEAD`. -/
def answerOldest (s : State) (k : Slot → State) : Result :=
  if isEmpty s then .next (s.answer minusOne) else withValue (bufRead s s.head) fun v => .next (k v)

theorem exec_peek (s : State) : exec .peek s = answerOldest s fun v => s.answer (byteResult v) := rfl

theorem exec_read (s : State) : exec .read s = answerOldest s fun v => s.pop.answer (byteResult v) := rfl

section
variable {k : Slot → State}

theorem answerOldest_empty (hEmpty : s.head = s.tail) : answerOldest s k = .next (s.answer minusOne) :=
  if_pos ((isEmpty_iff s).2 hEmpty)

theorem answerOldest_nonempty (hNonempty : s.head ≠ s.tail) :
    answerOldest s k = withValue (bufRead s s.head) fun v => .next (k v) :=
  if_neg (mt (isEmpty_iff s).1 hNonempty)

theorem answerOldest_written {v : Slot} (hNonempty : s.head ≠ s.tail) (hHead : s.head < s.cfg.n)
    (hSlot : slotAt s.buf s.head = some v) : answerOldest s k = .next (k v) := by
  rw [answerOldest_nonempty hNonempty, bufRead_of_written hHead hSlot, withValue_ok]

theorem answerOldest_unwritten (hNonempty : s.head ≠ s.tail) (hHead : s.head < s.cfg.n) (hSlot : slotAt s.buf s.head = none) :
    answerOldest s k = .fault (.uninitSlotRead s.head) := by
  rw [answerOldest_nonempty hNonempty, bufRead_of_unwritten hHead hSlot, withValue_error]

theorem answerOldest_beyond (hNonempty : s.head ≠ s.tail) (hHead : s.cfg.n ≤ s.head) :
    answerOldest s k = .fault (.indexOutOfRange s.head) := by
  rw [answerOldest_nonempty hNonempty, bufRead_beyond hHead, withValue_error]

end

/-- Settles O48: the read of the oldest byte, which `PEEK` leaves in the buffer. -/
theorem peekCompletes : Obligations.PeekCompletes := by
  unfold Obligations.PeekCompletes
  refine ⟨rfl, fun s => ?_⟩
  rw [exec_peek]
  exact ⟨answerOldest_empty, fun v => answerOldest_written, answerOldest_unwritten, answerOldest_beyond⟩

/-- Settles O49: the read of the oldest byte, which `READ` removes. -/
theorem readCompletes : Obligations.ReadCompletes := by
  unfold Obligations.ReadCompletes
  refine ⟨rfl, fun s => ?_⟩
  rw [exec_read]
  exact ⟨answerOldest_empty, fun v => answerOldest_written, answerOldest_unwritten, answerOldest_beyond⟩

/-! ### `ENDLF` and `ENDCR` (R215, R216) -/

/-- What `ENDLF` and `ENDCR` share: the test of the byte `back` before `TAIL` against `v`. -/
def answerRecent (s : State) (back : Nat) (v : Slot) : Result :=
  withValue (recentIs s back v) fun b => .next (s.answer (boolResult b))

theorem exec_endLf (s : State) : exec .endLf s = answerRecent s 1 lineFeed := rfl

theorem exec_endCr (s : State) : exec .endCr s = answerRecent s 2 carriageReturn := rfl

theorem backIndex_lt (j k : Nat) (hHead : s.head < s.cfg.n) : backIndex s j k < s.cfg.n :=
  Nat.mod_lt _ (Nat.zero_lt_of_lt hHead)

/-- The test of two slots, as a result, compares their numbers. -/
theorem boolResult_beq (w v : Slot) : boolResult (w == v) = if w.toNat = v.toNat then 0x0001#16 else 0x0000#16 := by
  simp [boolResult, BitVec.toNat_inj]

section
variable {back : Nat} {v w : Slot}

theorem answerRecent_few (hHead : s.head < s.cfg.n) (hFew : s.stored < back) :
    answerRecent s back v = .next (s.answer 0x0000#16) := by
  rw [answerRecent, recentIs_ok_iff.2 ⟨hHead, .inr ⟨hFew, rfl⟩⟩, withValue_ok]
  rfl

theorem answerRecent_written (hHead : s.head < s.cfg.n) (hStored : back ≤ s.stored)
    (hSlot : slotAt s.buf (backIndex s s.tail back) = some w) :
    answerRecent s back v = .next (s.answer (if w.toNat = v.toNat then 0x0001#16 else 0x0000#16)) := by
  have hRead := bufRead_of_written (backIndex_lt s.tail back hHead) hSlot
  rw [answerRecent, recentIs_ok_iff.2 ⟨hHead, .inl ⟨hStored, w, hRead, rfl⟩⟩, withValue_ok, boolResult_beq]

theorem answerRecent_unwritten (hHead : s.head < s.cfg.n) (hStored : back ≤ s.stored)
    (hSlot : slotAt s.buf (backIndex s s.tail back) = none) :
    answerRecent s back v = .fault (.uninitSlotRead (backIndex s s.tail back)) := by
  have hRead := bufRead_of_unwritten (backIndex_lt s.tail back hHead) hSlot
  simp [answerRecent, recentIs, count_of_head_lt hHead, hStored, hRead]

theorem answerRecent_beyond (hHead : s.cfg.n ≤ s.head) : answerRecent s back v = .fault (.indexOutOfRange s.head) := by
  simp [answerRecent, recentIs, count_beyond hHead]

end

/-- Settles O50: a byte is stored exactly when `HEAD` is not at `TAIL`. -/
theorem endLfCompletes : Obligations.EndLfCompletes := by
  unfold Obligations.EndLfCompletes
  refine ⟨rfl, fun s hTail => ?_⟩
  have hStored : s.head < s.cfg.n → s.head ≠ s.tail → 1 ≤ s.stored := fun hHead hNonempty =>
    Nat.pos_of_ne_zero (mt (stored_eq_zero_iff hHead hTail).1 hNonempty)
  rw [exec_endLf]
  refine ⟨fun hHead hEmpty => answerRecent_few hHead ?_,
    fun v hHead hNonempty => answerRecent_written hHead (hStored hHead hNonempty),
    fun hHead hNonempty => answerRecent_unwritten hHead (hStored hHead hNonempty), answerRecent_beyond⟩
  rw [(stored_eq_zero_iff hHead hTail).2 hEmpty]
  exact Nat.one_pos

/-- Settles O51: the count is compared with 2 before a slot is read. -/
theorem endCrCompletes : Obligations.EndCrCompletes := by
  unfold Obligations.EndCrCompletes
  refine ⟨rfl, fun s _ => ?_⟩
  rw [exec_endCr]
  exact ⟨answerRecent_few, fun v => answerRecent_written, answerRecent_unwritten, answerRecent_beyond⟩

/-! ### `ADVH`, `FLUSH` and the flags (R217 to R220) -/

/-- Settles O52: `ADVH` writes `HEAD` and takes one tick. -/
theorem advHCompletes : Obligations.AdvHCompletes := by
  unfold Obligations.AdvHCompletes
  exact ⟨commandWord_eq_append 0xD#4, fun n s => rfl⟩

theorem exec_flush (s : State) : exec .flush s = .next (s.emptyBuffer.occupy oneTick) := rfl

theorem exec_hasOvf (s : State) : exec .hasOvf s = .next (s.answer (boolResult s.ovf)) := rfl

theorem exec_hasPe (s : State) : exec .hasPe s = .next (s.answer (boolResult s.perr)) := rfl

/-- Settles O53: after `FLUSH` the buffer is empty and both flags are clear. -/
theorem flushCompletes : Obligations.FlushCompletes := by
  unfold Obligations.FlushCompletes
  refine ⟨rfl, fun s => ⟨exec_flush s, fun hc t ht i r hQuery => ?_⟩⟩
  cases ht
  obtain ⟨hN, -⟩ := (illFormedConfigurationIsRefused.1 s.cfg).1 hc
  have hHead : (s.emptyBuffer.occupy oneTick).head < (s.emptyBuffer.occupy oneTick).cfg.n := Nat.zero_lt_of_lt hN
  simp only [List.mem_cons, List.not_mem_nil, or_false, Prod.mk.injEq] at hQuery
  obtain ⟨rfl, rfl⟩ | ⟨rfl, rfl⟩ | ⟨rfl, rfl⟩ | ⟨rfl, rfl⟩ := hQuery
  · refine ⟨_, exec_avail_count rfl hHead, ?_⟩
    rw [(stored_eq_zero_iff hHead hHead).2 rfl]
    rfl
  · exact ⟨_, (exec_peek _).trans (answerOldest_empty rfl), rfl⟩
  · exact ⟨_, exec_hasOvf _, rfl⟩
  · exact ⟨_, exec_hasPe _, rfl⟩

/-- Settles O54: both queries answer their flag and leave it. -/
theorem flagQueriesComplete : Obligations.FlagQueriesComplete := by
  unfold Obligations.FlagQueriesComplete
  exact ⟨rfl, rfl, exec_hasOvf, exec_hasPe⟩

end Sys2Proof.Machine
end

section
/-!
PROOFS. The circular buffer over sequences of operations (43_buffer.md R221, R222): reads of live slots complete, bytes come back in order, and what
an overflow loses.
-/

namespace Sys2Proof.Machine

variable {s : State}

/-! ### Reads of live slots (R221) -/

/-- The index before `TAIL` by at most the stored number is the index of a live slot. -/
theorem backIndex_eq_advanceIndex {back : Nat} (hHead : s.head < s.cfg.n) (hTail : s.tail < s.cfg.n) (hStored : back ≤ s.stored) :
    backIndex s s.tail back = advanceIndex s s.head (s.stored - back) := by
  have hLt := stored_lt hHead
  have hBack : s.tail + (s.cfg.n - back) = s.tail + s.cfg.n - back := by omega
  have hSum : s.stored + (s.cfg.n - back) = s.stored - back + s.cfg.n := by omega
  calc backIndex s s.tail back
      = advanceIndex s s.tail (s.cfg.n - back) := by rw [backIndex, advanceIndex, hBack]
    _ = advanceIndex s s.head (s.stored - back + s.cfg.n) := by
      rw [tail_eq_advanceIndex hHead hTail, advanceIndex_advanceIndex, hSum]
    _ = advanceIndex s s.head (s.stored - back) := by rw [advanceIndex, ← Nat.add_assoc, Nat.add_mod_right, advanceIndex]

/-- The oldest of written contents is read. -/
theorem answerOldest_of_liveWritten {k : Slot → State} (hHead : s.head < s.cfg.n) (hTail : s.tail < s.cfg.n)
    (hLive : s.LiveWritten) : ∃ t, answerOldest s k = .next t := by
  by_cases hEmpty : s.head = s.tail
  · exact ⟨_, answerOldest_empty hEmpty⟩
  · have hPos := Nat.pos_of_ne_zero (mt (stored_eq_zero_iff hHead hTail).1 hEmpty)
    obtain ⟨v, hSlot⟩ := exists_slotAt_of_liveWritten hLive hPos
    rw [advanceIndex_zero hHead] at hSlot
    exact ⟨_, answerOldest_written hEmpty hHead hSlot⟩

/-- A recent byte of written contents is tested. -/
theorem answerRecent_of_liveWritten {back : Nat} {v : Slot} (hHead : s.head < s.cfg.n) (hTail : s.tail < s.cfg.n)
    (hLive : s.LiveWritten) (hBack : 0 < back) : ∃ t, answerRecent s back v = .next t := by
  rcases Nat.lt_or_ge s.stored back with hFew | hStored
  · exact ⟨_, answerRecent_few hHead hFew⟩
  · obtain ⟨w, hSlot⟩ := exists_slotAt_of_liveWritten hLive (show s.stored - back < s.stored by omega)
    rw [← backIndex_eq_advanceIndex hHead hTail hStored] at hSlot
    exact ⟨_, answerRecent_written hHead hStored hSlot⟩

/-- Settles O56: the slot each command reads is a live one. -/
theorem liveReadsComplete : Obligations.LiveReadsComplete := by
  unfold Obligations.LiveReadsComplete
  intro s hs hHead hLive i hi
  obtain ⟨-, hTail, -⟩ := hs
  simp only [List.mem_cons, List.not_mem_nil, or_false] at hi
  obtain rfl | rfl | rfl | rfl := hi
  · rw [exec_peek]
    exact answerOldest_of_liveWritten hHead hTail hLive
  · rw [exec_read]
    exact answerOldest_of_liveWritten hHead hTail hLive
  · rw [exec_endLf]
    exact answerRecent_of_liveWritten hHead hTail hLive Nat.one_pos
  · rw [exec_endCr]
    exact answerRecent_of_liveWritten hHead hTail hLive Nat.two_pos

/-! ### The queue (R210, R214) -/

/-- With room for a byte `Enqueue` appends it to the contents. -/
theorem enqueue_appends (v : Slot) (hHead : s.head < s.cfg.n) (hTail : s.tail < s.cfg.n) (hRoom : s.stored + 1 < s.cfg.n) :
    enqueue s v = .next (s.push v) ∧ (s.push v).contents = s.contents ++ [some v] := by
  have hNotFull : advanceIndex s s.tail 1 ≠ s.head := mt (full_iff_stored hHead hTail).1 hRoom.ne
  exact ⟨enqueue_of_not_full v hHead hTail hNotFull, contents_push v hHead hTail hNotFull⟩

/-- Contents that begin with a byte are those of a buffer that is not empty and has that byte in slot `HEAD`. -/
theorem head_of_contents_cons {x : Option Slot} {rest : List (Option Slot)} (hHead : s.head < s.cfg.n)
    (h : s.contents = x :: rest) : s.head ≠ s.tail ∧ slotAt s.buf s.head = x := by
  constructor
  · intro hEmpty
    rw [contents_of_head_eq_tail hEmpty] at h
    cases h
  · have hPos : 0 < s.stored := by simp [← length_contents, h]
    have hFirst := getElem?_contents hPos
    rw [h, advanceIndex_zero hHead] at hFirst
    exact (Option.some.inj hFirst).symm

/-- A `READ` of contents that begin with a byte answers the byte and removes it. -/
theorem read_removes {v : Slot} {rest : List (Option Slot)} (hHead : s.head < s.cfg.n) (hTail : s.tail < s.cfg.n)
    (h : s.contents = some v :: rest) :
    exec .read s = .next (s.pop.answer (byteResult v)) ∧ (s.pop.answer (byteResult v)).contents = rest := by
  obtain ⟨hNonempty, hSlot⟩ := head_of_contents_cons hHead h
  refine ⟨(exec_read s).trans (answerOldest_written hNonempty hHead hSlot), ?_⟩
  calc s.pop.contents = s.contents.drop 1 := contents_pop hHead hTail hNonempty
    _ = rest := by rw [h]; rfl

/-- Settles O57: the store and the read, on the contents. -/
theorem bufferIsAQueue : Obligations.BufferIsAQueue := by
  unfold Obligations.BufferIsAQueue
  intro s hs hHead
  obtain ⟨-, hTail, -⟩ := hs
  refine ⟨fun v hRoom => ?_, fun v rest h => ?_⟩
  · exact ⟨_, enqueue_appends v hHead hTail (by omega)⟩
  · obtain ⟨hRead, hRest⟩ := read_removes hHead hTail h
    exact ⟨_, hRead, rfl, hRest⟩

/-! ### First in, first out (R221) -/

/-- Stores that the buffer has room for append their bytes and leave `OVF`. -/
theorem enqueueMany_appends (vs : List Slot) (hHead : s.head < s.cfg.n) (hTail : s.tail < s.cfg.n)
    (hRoom : s.stored + vs.length < s.cfg.n) :
    ∃ t, enqueueMany vs s = .next t ∧ t.contents = s.contents ++ vs.map some ∧ t.ovf = s.ovf ∧
      t.head < t.cfg.n ∧ t.tail < t.cfg.n := by
  induction vs generalizing s with
  | nil => exact ⟨s, rfl, by simp, rfl, hHead, hTail⟩
  | cons v vs ih =>
    rw [List.length_cons] at hRoom
    obtain ⟨hStore, hContents⟩ := enqueue_appends v hHead hTail (by omega)
    have hStored : (s.push v).stored = s.stored + 1 := by simp [← length_contents, hContents]
    obtain ⟨t, hMany, htContents, htOvf, htIndices⟩ :=
      ih (s := s.push v) hHead (advanceIndex_lt 1 hTail) (by rw [hStored, State.push_cfg]; omega)
    refine ⟨t, ?_, ?_, htOvf, htIndices⟩
    · rw [enqueueMany, hStore]
      exact hMany
    · rw [htContents, hContents, List.append_assoc]
      rfl

/-- As many `READ`s as there are written contents answer them in order and leave nothing. -/
theorem readMany_answers {vs : List Slot} (hHead : s.head < s.cfg.n) (hTail : s.tail < s.cfg.n)
    (h : s.contents = vs.map some) (hOvf : s.ovf = false) :
    ∃ u, readMany vs.length s = some (vs.map byteResult, u) ∧ u.head = u.tail ∧ u.ovf = false := by
  induction vs generalizing s with
  | nil =>
    have hStored : s.stored = 0 := by rw [← length_contents, h]; rfl
    exact ⟨s, rfl, (stored_eq_zero_iff hHead hTail).1 hStored, hOvf⟩
  | cons v vs ih =>
    obtain ⟨hRead, hRest⟩ := read_removes hHead hTail h
    obtain ⟨u, hMany, huEmpty⟩ := ih (s := s.pop.answer (byteResult v)) (advanceIndex_lt 1 hHead) hTail hRest rfl
    refine ⟨u, ?_, huEmpty⟩
    simp only [List.length_cons, readMany, hRead, hMany]
    rfl

/-- Settles O58: the stores append to empty contents, and the reads take them off in order. -/
theorem fifoOrder : Obligations.FifoOrder := by
  unfold Obligations.FifoOrder
  intro s vs _ hs hEmpty hOvf hLength
  obtain ⟨-, hTail, -⟩ := hs
  have hHead : s.head < s.cfg.n := hEmpty ▸ hTail
  have hStored : s.stored = 0 := (stored_eq_zero_iff hHead hTail).2 hEmpty
  obtain ⟨t, hMany, hContents, htOvf, htHead, htTail⟩ := enqueueMany_appends vs hHead hTail (by omega)
  rw [contents_of_head_eq_tail hEmpty, List.nil_append] at hContents
  obtain ⟨u, hReads, huEmpty, huOvf⟩ := readMany_answers htHead htTail hContents (htOvf.trans hOvf)
  exact ⟨t, u, hMany, htOvf.trans hOvf, hReads, huEmpty, huOvf⟩

/-! ### Overflow and recovery (R222) -/

/-- Settles O59: the dropped byte leaves the contents, and the `READ` that clears `OVF` leaves one byte fewer. -/
theorem overflowAndRecovery : Obligations.OverflowAndRecovery := by
  unfold Obligations.OverflowAndRecovery
  intro s v w rest hs hHead hN hSmall hFull h
  obtain ⟨-, hTail, -⟩ := hs
  have hDrop : enqueue s v = .next s.overflow :=
    enqueue_of_full hHead ((full_iff_stored hHead hTail).2 (by omega))
  obtain ⟨hRead, hRest⟩ := read_removes (s := s.overflow) hHead hTail h
  have hLeft : (s.overflow.pop.answer (byteResult w)).stored = s.cfg.n - 2 := by
    have hLength : rest.length + 1 = s.stored := by rw [← length_contents, h]; rfl
    rw [← length_contents, hRest]
    omega
  refine ⟨_, hDrop, rfl, rfl, rfl, ⟨_, exec_avail_overflow rfl, rfl⟩, _, hRead, rfl, rfl, hRest, _,
    exec_avail_count rfl (advanceIndex_lt 1 hHead), ?_⟩
  rw [hLeft]
  exact countResult_of_lt (by omega)

end Sys2Proof.Machine
end

section
/-!
PROOFS. Diagnostics and faults (60_exceptions.md R243, R253): what the diagnostic port shows after a tick without a fault, and when a command's
meaning faults.
-/

namespace Sys2Proof.Machine

variable {i : Instr} {io : TickIn} {s t : State}

/-! ### The diagnostic port (R243) -/

/-- The diagnostic code a command raises: `BadState` for `SETST` of an unrecognized state, none otherwise (40_line_state.md R143). -/
def diagOfCommand : Instr → BitVec 3
  | .setSt c => if 5 ≤ c.toNat then diagBadState else 0#3
  | .beginRx | .endRx | .hold | .wake | .wChar _ | .avail | .peek | .read | .endLf | .endCr | .flush | .advH _ | .hasOvf | .hasPe => 0#3

/-- The diagnostic code that performing a word raises: `IllegalCmd`, or its command's (30_encoding.md R104). -/
def diagOfWord (w : Word) : BitVec 3 :=
  match decode w with
  | .ok i => diagOfCommand i
  | .error _ => diagIllegalCmd

/-- The diagnostic code of a host act that starts with `HREM = hrem`: a word is performed only at 0 (30_encoding.md R103). -/
def diagOfAct (io : TickIn) (hrem : Nat) : BitVec 3 :=
  if hrem = 0 ∧ io.cmdValid = true then diagOfWord io.cmdWord else 0#3

/-- The diagnostic port shows `code`, with a pulse exactly for a code that is not 0. -/
def State.ShowsDiag (s : State) (code : BitVec 3) : Prop := s.diagCode = code ∧ (s.diagValid = true ↔ code ≠ 0#3)

theorem clearPulses_showsDiag (s : State) : s.clearPulses.ShowsDiag 0#3 := ⟨rfl, by simp⟩

theorem raiseDiag_showsDiag (s : State) {code : BitVec 3} (h : code ≠ 0#3) : (s.raiseDiag code).ShowsDiag code :=
  ⟨rfl, iff_of_true rfl h⟩

/-- `SETST` names no state exactly with a code above 4 (30_encoding.md R124). -/
theorem stateOfCode_eq_none_iff {c : Byte} : stateOfCode c = none ↔ 5 ≤ c.toNat := by
  refine ⟨fun h => ?_, stateOfCode_eq_none⟩
  by_contra hLt
  rw [Nat.not_le] at hLt
  interval_cases hc : c.toNat <;> simp [stateOfCode, hc] at h

/-- Only `SETST` of an unrecognized state writes the diagnostic port. -/
theorem exec_diagPort (h : exec i s = .next t) (hKnown : ∀ c, i = .setSt c → ¬5 ≤ c.toNat) :
    t.diagCode = s.diagCode ∧ t.diagValid = s.diagValid := by
  obtain ⟨d, hd⟩ := exec_cases h
  rcases hd with ⟨rfl, -⟩ | ⟨ls, rfl, -⟩ | ⟨-, c, hc, hNone⟩ | ⟨rfl, -⟩ | ⟨b, rfl, -⟩ | ⟨v, rfl, -⟩ | ⟨v, -, -, rfl, -⟩ |
    ⟨rfl, -⟩ | ⟨n, rfl, -⟩
  case inr.inr.inl => exact absurd (stateOfCode_eq_none_iff.1 hNone) (hKnown c hc)
  all_goals exact ⟨rfl, rfl⟩

theorem diagOfCommand_eq_zero (hKnown : ∀ c, i = .setSt c → ¬5 ≤ c.toNat) : diagOfCommand i = 0#3 := by
  cases i with
  | setSt c => exact if_neg (hKnown c rfl)
  | _ => rfl

/-- A command performed after the pulses have ended shows its own code. -/
theorem exec_showsDiag (h : exec i s = .next t) (hs : s.ShowsDiag 0#3) : t.ShowsDiag (diagOfCommand i) := by
  by_cases hBad : ∃ c, i = .setSt c ∧ 5 ≤ c.toNat
  · obtain ⟨c, rfl, hc⟩ := hBad
    rw [exec_setSt_unrecognized (stateOfCode_eq_none hc)] at h
    cases h
    rw [diagOfCommand, if_pos hc]
    exact raiseDiag_showsDiag s (code := diagBadState) (by decide)
  · have hKnown : ∀ c, i = .setSt c → ¬5 ≤ c.toNat := fun c hi hc => hBad ⟨c, hi, hc⟩
    obtain ⟨hCode, hValid⟩ := exec_diagPort h hKnown
    rw [State.ShowsDiag, diagOfCommand_eq_zero hKnown, hCode, hValid]
    exact hs

/-- The host's act shows the code of the word it performs, and 0 where it performs none. -/
theorem hostAct_showsDiag (h : hostAct io s = .next t) : t.ShowsDiag (diagOfAct io s.hrem) := by
  unfold diagOfAct diagOfWord
  rcases hostAct_cases h with ⟨hBusy, rfl⟩ | ⟨hFree, hValid, i, hDecode, hi⟩ | ⟨hFree, hValid, ⟨r, hDecode⟩, rfl⟩ | ⟨-, hValid, rfl⟩
  · rw [if_neg fun hFree => hBusy.ne' hFree.1]
    exact clearPulses_showsDiag s
  · rw [if_pos ⟨hFree, hValid⟩, hDecode]
    exact exec_showsDiag hi (clearPulses_showsDiag s)
  · rw [if_pos ⟨hFree, hValid⟩, hDecode]
    exact raiseDiag_showsDiag s.clearPulses (code := diagIllegalCmd) (by decide)
  · rw [if_neg (by simp [hValid])]
    exact clearPulses_showsDiag s

/-- In a tick that leaves no fault mark the host's act ran, on the port as it stood at the tick's start, and the decoder's act changed nothing the
decoder does not write. -/
theorem agentsAct_runs_hostAct (h : agentsAct io s = .next t) (hf : t.faultMark = none) :
    ∃ u v, u.hrem = s.hrem ∧ hostAct io u = .next v ∧ v.AgreesOffDecoder t := by
  unfold agentsAct at h
  split at h
  · obtain ⟨v, hHost, hDec⟩ := bothActs_unfaulted h hf
    exact ⟨s, v, rfl, hHost, decoderAct_agreesOffDecoder hDec⟩
  · obtain ⟨u, hDec, hHost⟩ := bothActs_unfaulted h hf
    exact ⟨u, t, decoderAct_hrem hDec, hHost, by simp [State.AgreesOffDecoder]⟩

/-- A tick without reset that leaves no fault mark shows the code of its host act. -/
theorem step_showsDiag (h : step s = .next t) (hf : t.faultMark = none) (hRst : s.currentIn.rst = false) :
    t.ShowsDiag (diagOfAct s.currentIn s.hrem) := by
  obtain ⟨x, hActs, rfl⟩ := step_without_reset h hRst
  obtain ⟨u, v, hHrem, hHost, -, -, -, -, -, -, -, -, -, hValid, hCode, -⟩ := agentsAct_runs_hostAct hActs hf
  have hShows := hostAct_showsDiag hHost
  rw [hHrem] at hShows
  unfold State.ShowsDiag
  rw [State.endTick_diagCode, State.endTick_diagValid, hValid, hCode]
  exact hShows

/-- Settles O7: a reset tick shows 0, and any other the code of the word its host act performs. -/
theorem diagnosticPort : Obligations.DiagnosticPort := by
  unfold Obligations.DiagnosticPort
  intro s t h hf
  cases hRst : s.currentIn.rst with
  | true => simp [step_with_reset h hRst]
  | false =>
    obtain ⟨hCode, hValid⟩ := step_showsDiag h hf hRst
    rw [hCode]
    refine ⟨?_, hValid⟩
    simp only [diagOfAct, true_and]
    refine if_congr Iff.rfl ?_ rfl
    unfold diagOfWord
    cases decode s.currentIn.cmdWord with
    | error r => rfl
    | ok i => cases i <;> rfl

/-! ### The faults (R253) -/

/-- `AVAIL` faults as `Count` does, and not under overflow. -/
theorem exec_avail_fault_iff {f : Fault} :
    exec .avail s = .fault f ↔ s.ovf = false ∧ s.cfg.n ≤ s.head ∧ f = .indexOutOfRange s.head := by
  cases hOvf : s.ovf with
  | true => simp [exec_avail_overflow hOvf]
  | false =>
    rcases Nat.lt_or_ge s.head s.cfg.n with hHead | hBeyond
    · simp [exec_avail_count hOvf hHead, hHead.not_ge]
    · simp [exec_avail_beyond hOvf hBeyond, hBeyond, eq_comm]

theorem withValue_eq_fault_iff {α : Type} {r : Except Fault α} {k : α → State} {f : Fault} :
    (withValue r fun v => .next (k v)) = .fault f ↔ r = .error f := by
  cases r <;> simp

/-- The read of the oldest byte faults as `BufRead` does, and not on an empty buffer. -/
theorem answerOldest_fault_iff {k : Slot → State} {f : Fault} :
    answerOldest s k = .fault f ↔
      s.head ≠ s.tail ∧
        ((s.cfg.n ≤ s.head ∧ f = .indexOutOfRange s.head) ∨
          (s.head < s.cfg.n ∧ slotAt s.buf s.head = none ∧ f = .uninitSlotRead s.head)) := by
  by_cases hEmpty : s.head = s.tail
  · simp [answerOldest_empty hEmpty, hEmpty]
  · rw [answerOldest_nonempty hEmpty, withValue_eq_fault_iff, bufRead_error_iff]
    exact (and_iff_right hEmpty).symm

/-- The test of a recent byte faults as `Count` does and, with enough bytes stored, on an unwritten slot. -/
theorem answerRecent_fault_iff {back : Nat} {v : Slot} {f : Fault} :
    answerRecent s back v = .fault f ↔
      (s.cfg.n ≤ s.head ∧ f = .indexOutOfRange s.head) ∨
        (s.head < s.cfg.n ∧ back ≤ s.stored ∧ slotAt s.buf (backIndex s s.tail back) = none ∧
          f = .uninitSlotRead (backIndex s s.tail back)) := by
  rcases Nat.lt_or_ge s.head s.cfg.n with hHead | hBeyond
  · rcases Nat.lt_or_ge s.stored back with hFew | hStored
    · simp [answerRecent_few hHead hFew, hHead.not_ge, hFew.not_ge]
    · cases hSlot : slotAt s.buf (backIndex s s.tail back) with
      | none => simp [answerRecent_unwritten hHead hStored hSlot, hHead, hHead.not_ge, hStored, eq_comm]
      | some w => simp [answerRecent_written hHead hStored hSlot, hHead.not_ge]
  · simp [answerRecent_beyond hBeyond, hBeyond, hBeyond.not_gt, eq_comm]

/-- `SETST` answers a next state for every code. -/
theorem execSetSt_total (c : Byte) (s : State) : ∃ t, execSetSt c s = .next t := by
  unfold execSetSt
  split <;> exact ⟨_, rfl⟩

/-- Settles O55: the faults of `Count` and `BufRead` where a command reads them; the other commands answer a next state. -/
theorem commandsFaultExactly : Obligations.CommandsFaultExactly := by
  unfold Obligations.CommandsFaultExactly
  intro i s k
  cases i with
  | avail => exact exec_avail_fault_iff
  | peek | read => exact answerOldest_fault_iff
  | endLf | endCr => exact answerRecent_fault_iff
  | setSt c =>
    obtain ⟨t, ht⟩ := execSetSt_total c s
    simp [exec, ht]
  | beginRx | endRx | hold | wake | wChar _ | flush | advH _ | hasOvf | hasPe => exact iff_of_false nofun id

end Sys2Proof.Machine
end

section
/-!
PROOFS. Reset (70_reset_and_hazards.md R270, R272): what the block answers and does in the state after reset, and what a tick with reset leaves.
-/

namespace Sys2Proof.Machine

variable {i : Instr} {s : State}

/-! ### The state after reset (R272) -/

/-- The seven queries' answers on an empty buffer with both flags clear (43_buffer.md R212 to R216, R219, R220). -/
def emptyAnswers : List (Instr × Word) :=
  [(.avail, 0x0000#16), (.peek, 0xFFFF#16), (.read, 0xFFFF#16), (.endLf, 0x0000#16), (.endCr, 0x0000#16), (.hasOvf, 0x0000#16),
    (.hasPe, 0x0000#16)]

/-- No query reads a slot of an empty buffer. -/
theorem exec_query_of_empty {r : Word} (hHead : s.head < s.cfg.n) (hEmpty : s.head = s.tail) (hOvf : s.ovf = false)
    (hPerr : s.perr = false) (hQuery : (i, r) ∈ emptyAnswers) : ∃ t, exec i s = .next t ∧ t.rsp = r := by
  have hStored : s.stored = 0 := (stored_eq_zero_iff hHead (hEmpty ▸ hHead)).2 hEmpty
  have hFew : ∀ back, 0 < back → s.stored < back := fun back hBack => hStored ▸ hBack
  simp only [emptyAnswers, List.mem_cons, List.not_mem_nil, or_false, Prod.mk.injEq] at hQuery
  obtain ⟨rfl, rfl⟩ | ⟨rfl, rfl⟩ | ⟨rfl, rfl⟩ | ⟨rfl, rfl⟩ | ⟨rfl, rfl⟩ | ⟨rfl, rfl⟩ | ⟨rfl, rfl⟩ := hQuery
  · exact ⟨_, exec_avail_count hOvf hHead, by rw [hStored]; rfl⟩
  · exact ⟨_, (exec_peek s).trans (answerOldest_empty hEmpty), rfl⟩
  · exact ⟨_, (exec_read s).trans (answerOldest_empty hEmpty), rfl⟩
  · exact ⟨_, (exec_endLf s).trans (answerRecent_few hHead (hFew 1 (by decide))), rfl⟩
  · exact ⟨_, (exec_endCr s).trans (answerRecent_few hHead (hFew 2 (by decide))), rfl⟩
  · exact ⟨_, exec_hasOvf s, by rw [hOvf]; rfl⟩
  · exact ⟨_, exec_hasPe s, by rw [hPerr]; rfl⟩

/-- Settles O10: the registers by definition, the answers by the empty buffer, and no decode because the decoder is disarmed. -/
theorem resetState : Obligations.ResetState := by
  unfold Obligations.ResetState
  refine ⟨rfl, rfl, rfl, rfl, rfl, rfl, rfl, rfl, slotAt_nil, rfl, rfl, rfl, rfl, rfl, rfl, rfl, rfl, fun i r hQuery => ?_, fun rx => ?_⟩
  · exact exec_query_of_empty (by decide) rfl rfl rfl hQuery
  · exact ⟨_, decoderAct_disarmed rfl rfl, rfl⟩

/-! ### A tick with reset (R270) -/

/-- Settles O11: the tick is the reset action, which leaves the configuration and the clear fault mark. -/
theorem resetTick : Obligations.ResetTick := by
  unfold Obligations.ResetTick
  intro s hc hf hRst
  refine ⟨_, step_eq_resetBlock hc hf hRst, ?_⟩
  rw [← hf]
  rfl

end Sys2Proof.Machine
end
